-- ==== Sys2Proof/Word.lean ====
section
/-! DEFINITION. The words of MD5-CORE (spec 00 R7, R9): bytes, 32-bit words with addition modulo 2^32,
the 64-bit length, and a group of four words. -/

namespace Sys2Proof

/-- One byte of the block buffer or of the digest (R26, R28). -/
abbrev Byte := BitVec 8

/-- A 32-bit unsigned word (R7). Its `+` is the spec's `+32` (R9). -/
abbrev Word := BitVec 32

/-- The 64-bit length counter (R24). Its `+`, `-` and `*` are the spec's `+64`, `-64` and `*64` (R9). -/
abbrev Len := BitVec 64

/-- An index into the block buffer (R50). -/
abbrev BufIndex := BitVec 6

/-- Four words named a, b, c, d: the accumulator ACC[0..3] (R23) and the working registers (R29). -/
structure Quad where
  a : Word
  b : Word
  c : Word
  d : Word
deriving DecidableEq, Repr

/-- Word by word `+32`, pairing a with 0, b with 1, c with 2 and d with 3 (R127). -/
def Quad.add (x y : Quad) : Quad := ⟨x.a + y.a, x.b + y.b, x.c + y.c, x.d + y.d⟩

end Sys2Proof
end

