-- ==== Sys2Proof/Syntax.lean ====
section
/-! DEFINITION. The instructions: one constructor per row of spec/opcode_table.json (spec 30 R76, R78). -/

namespace Sys2Proof

/-- The four commands, the raw write, and the twelve reserved operation codes with the 12 bits below OP. -/
inductive Instr where
  /-- `0x1000` (R100). -/
  | init
  /-- `0x20bb`: feed byte b (R102). -/
  | write (b : Byte)
  /-- `0x30nn`: account for N raw-written bytes (R106). -/
  | commit (n : Byte)
  /-- `0x4000` (R150). -/
  | finish
  /-- The raw port bundle: byte d to BUF[a] (R104). -/
  | rawWrite (a : BufIndex) (d : Byte)
  /-- OP 0x0 (R202), as the eleven below. -/
  | reservedOp0 (low : BitVec 12)
  | reservedOp5 (low : BitVec 12)
  | reservedOp6 (low : BitVec 12)
  | reservedOp7 (low : BitVec 12)
  | reservedOp8 (low : BitVec 12)
  | reservedOp9 (low : BitVec 12)
  | reservedOpA (low : BitVec 12)
  | reservedOpB (low : BitVec 12)
  | reservedOpC (low : BitVec 12)
  | reservedOpD (low : BitVec 12)
  | reservedOpE (low : BitVec 12)
  | reservedOpF (low : BitVec 12)
deriving DecidableEq, Repr

end Sys2Proof
end

