-- ==== Sys2Proof/WellFormed.lean ====
section
/-! DEFINITION. Which instructions a core has. Operand ranges are in the operands' types (a 6-bit index, 8-bit bytes);
what is left to check is that the instruction exists on a core built with this `P_HAS_RAW_PORT` (spec 30 R76, 41 R104,
R106). -/

namespace Sys2Proof

/-- COMMIT and RAW_WRITE exist only when `P_HAS_RAW_PORT` is true (R76, R79, R106); every other row always exists. -/
def Instr.wellFormed (hasRaw : Bool) : Instr → Bool
  | .commit _ => hasRaw
  | .rawWrite _ _ => hasRaw
  | .init => true
  | .write _ => true
  | .finish => true
  | .reservedOp0 _ => true
  | .reservedOp5 _ => true
  | .reservedOp6 _ => true
  | .reservedOp7 _ => true
  | .reservedOp8 _ => true
  | .reservedOp9 _ => true
  | .reservedOpA _ => true
  | .reservedOpB _ => true
  | .reservedOpC _ => true
  | .reservedOpD _ => true
  | .reservedOpE _ => true
  | .reservedOpF _ => true

/-- Does the instruction come over the command port (R73), and not over the raw port (R76)? -/
def Instr.isCommand : Instr → Bool
  | .rawWrite _ _ => false
  | .init => true
  | .write _ => true
  | .commit _ => true
  | .finish => true
  | .reservedOp0 _ => true
  | .reservedOp5 _ => true
  | .reservedOp6 _ => true
  | .reservedOp7 _ => true
  | .reservedOp8 _ => true
  | .reservedOp9 _ => true
  | .reservedOpA _ => true
  | .reservedOpB _ => true
  | .reservedOpC _ => true
  | .reservedOpD _ => true
  | .reservedOpE _ => true
  | .reservedOpF _ => true

end Sys2Proof
end

