-- ==== Sys2Proof/Decode.lean ====
section
/-! DEFINITION. The decoder (spec 30 R73, R76, R79, R80), total on both ports and rejecting by name, and the encoder
written from the same tables (R76, R78). The ports carry whole words in parallel, so no byte order is involved. -/

namespace Sys2Proof

/-- What a port presents at an edge: a command word (R73), or the bundle `{raw_addr, raw_data}` (R76). -/
inductive PortWord where
  | command (w : BitVec 16)
  | raw (bundle : BitVec 14)
deriving DecidableEq, Repr

/-- Why a presented word is no instruction of this core. -/
inductive Reject where
  /-- OP 0x3 on a core without the raw port (R79): raises ILLEGAL_OP. -/
  | illegalOp
  /-- RSV != 0, or ARG != 0 for INIT or FINISH (R79, R80): raises RESERVED_BITS. -/
  | reservedBits
  /-- A bundle on a core that has no raw port (R76): the pins do not exist. -/
  | noRawPort
deriving DecidableEq, Repr

/-- `OP = c[15:12]` (R73). -/
def opOf (c : BitVec 16) : BitVec 4 := c.extractLsb' 12 4

/-- `RSV = c[11:8]` (R73). -/
def rsvOf (c : BitVec 16) : BitVec 4 := c.extractLsb' 8 4

/-- `ARG = c[7:0]` (R73). -/
def argOf (c : BitVec 16) : Byte := c.extractLsb' 0 8

/-- The twelve bits below OP, which a reserved operation code leaves without meaning (R80). -/
def lowOf (c : BitVec 16) : BitVec 12 := c.extractLsb' 0 12

/-- An operand-free command's word: RSV and ARG must be 0 (R79). -/
def decodeBare (c : BitVec 16) (i : Instr) : Except Reject Instr :=
  if rsvOf c ≠ 0#4 then .error .reservedBits
  else if argOf c ≠ 0#8 then .error .reservedBits
  else .ok i

/-- A one-operand command's word: RSV must be 0 (R79). -/
def decodeArg (c : BitVec 16) (i : Byte → Instr) : Except Reject Instr :=
  if rsvOf c ≠ 0#4 then .error .reservedBits else .ok (i (argOf c))

/-- R79, by OP. A reserved OP decodes to its own row, whose meaning raises ILLEGAL_OP whatever its other bits are. -/
def decodeCommand (hasRaw : Bool) (c : BitVec 16) : Except Reject Instr :=
  match (opOf c).toNat with
  | 0 => .ok (.reservedOp0 (lowOf c))
  | 1 => decodeBare c .init
  | 2 => decodeArg c .write
  | 3 => if hasRaw then decodeArg c .commit else .error .illegalOp
  | 4 => decodeBare c .finish
  | 5 => .ok (.reservedOp5 (lowOf c))
  | 6 => .ok (.reservedOp6 (lowOf c))
  | 7 => .ok (.reservedOp7 (lowOf c))
  | 8 => .ok (.reservedOp8 (lowOf c))
  | 9 => .ok (.reservedOp9 (lowOf c))
  | 10 => .ok (.reservedOpA (lowOf c))
  | 11 => .ok (.reservedOpB (lowOf c))
  | 12 => .ok (.reservedOpC (lowOf c))
  | 13 => .ok (.reservedOpD (lowOf c))
  | 14 => .ok (.reservedOpE (lowOf c))
  | _ => .ok (.reservedOpF (lowOf c))

/-- R76: every bundle is a RAW_WRITE of `bundle[7:0]` at `bundle[13:8]`. -/
def decodeRaw (hasRaw : Bool) (bundle : BitVec 14) : Except Reject Instr :=
  if hasRaw then .ok (.rawWrite (bundle.extractLsb' 8 6) (bundle.extractLsb' 0 8)) else .error .noRawPort

/-- The decoder of a core built with `P_HAS_RAW_PORT = hasRaw`. -/
def decode (hasRaw : Bool) : PortWord → Except Reject Instr
  | .command c => decodeCommand hasRaw c
  | .raw bundle => decodeRaw hasRaw bundle

/-- The word `OOOO RRRR AAAA AAAA` of an operation code and the twelve bits below it (R73). -/
def commandWord (op : BitVec 4) (low : BitVec 12) : PortWord := .command (op ++ low)

/-- `zext_12(ARG)`: RSV = 0000 above the argument (R73). -/
def argLow (arg : Byte) : BitVec 12 := 0#4 ++ arg

/-- The encoder, from the opcode map of R78 and the bundle pattern of R76. -/
def encode : Instr → PortWord
  | .init => commandWord 0x1#4 0#12
  | .write b => commandWord 0x2#4 (argLow b)
  | .commit n => commandWord 0x3#4 (argLow n)
  | .finish => commandWord 0x4#4 0#12
  | .rawWrite a d => .raw (a ++ d)
  | .reservedOp0 low => commandWord 0x0#4 low
  | .reservedOp5 low => commandWord 0x5#4 low
  | .reservedOp6 low => commandWord 0x6#4 low
  | .reservedOp7 low => commandWord 0x7#4 low
  | .reservedOp8 low => commandWord 0x8#4 low
  | .reservedOp9 low => commandWord 0x9#4 low
  | .reservedOpA low => commandWord 0xA#4 low
  | .reservedOpB low => commandWord 0xB#4 low
  | .reservedOpC low => commandWord 0xC#4 low
  | .reservedOpD low => commandWord 0xD#4 low
  | .reservedOpE low => commandWord 0xE#4 low
  | .reservedOpF low => commandWord 0xF#4 low

/-- Which port a table row's bits stand on (log 9): a row of 16 bits is a command word, a shorter one (the 14 bits of
RAW_WRITE) the raw bundle. -/
def tablePortWord (nbits w : Nat) : PortWord :=
  if nbits < 16 then .raw (BitVec.ofNat 14 w) else .command (BitVec.ofNat 16 w)

/-- The instruction the decoder of the reference core (`P_HAS_RAW_PORT` true, R8) reads from a table row's bits. -/
def decodeTableWord (nbits w : Nat) : Option Instr :=
  match decode true (tablePortWord nbits w) with
  | .ok i => some i
  | .error _ => none

end Sys2Proof
end

