-- ==== Sys2Proof/Machine/Rom.lean ====
section
/-! DEFINITION. The constant ROMs (spec 45). The values of K, S and IV are the standard MD5 values, which the spec itself
gives from general knowledge (R180 to R182, log 10). -/

namespace Sys2Proof.Machine

/-- K ROM, rounds 0 to 15 (R180). -/
def kRomF : List Word :=
  [0xd76aa478, 0xe8c7b756, 0x242070db, 0xc1bdceee,
   0xf57c0faf, 0x4787c62a, 0xa8304613, 0xfd469501,
   0x698098d8, 0x8b44f7af, 0xffff5bb1, 0x895cd7be,
   0x6b901122, 0xfd987193, 0xa679438e, 0x49b40821]

/-- K ROM, rounds 16 to 31 (R180). -/
def kRomG : List Word :=
  [0xf61e2562, 0xc040b340, 0x265e5a51, 0xe9b6c7aa,
   0xd62f105d, 0x02441453, 0xd8a1e681, 0xe7d3fbc8,
   0x21e1cde6, 0xc33707d6, 0xf4d50d87, 0x455a14ed,
   0xa9e3e905, 0xfcefa3f8, 0x676f02d9, 0x8d2a4c8a]

/-- K ROM, rounds 32 to 47 (R180). -/
def kRomH : List Word :=
  [0xfffa3942, 0x8771f681, 0x6d9d6122, 0xfde5380c,
   0xa4beea44, 0x4bdecfa9, 0xf6bb4b60, 0xbebfbc70,
   0x289b7ec6, 0xeaa127fa, 0xd4ef3085, 0x04881d05,
   0xd9d4d039, 0xe6db99e5, 0x1fa27cf8, 0xc4ac5665]

/-- K ROM, rounds 48 to 63 (R180). -/
def kRomI : List Word :=
  [0xf4292244, 0x432aff97, 0xab9423a7, 0xfc93a039,
   0x655b59c3, 0x8f0ccc92, 0xffeff47d, 0x85845dd1,
   0x6fa87e4f, 0xfe2ce6e0, 0xa3014314, 0x4e0811a1,
   0xf7537e82, 0xbd3af235, 0x2ad7d2bb, 0xeb86d391]

/-- The 64 entries of the K ROM (R180). -/
def kRom : List Word := kRomF ++ (kRomG ++ (kRomH ++ kRomI))

/-- K[i] (R180). -/
def kOf (i : Nat) : Word := kRom.getD i 0

/-- The row of four rotation amounts of a group of 16 rounds (R181). -/
def sRow (grp : Nat) : List Nat :=
  match grp with
  | 0 => [7, 12, 17, 22]
  | 1 => [5, 9, 14, 20]
  | 2 => [4, 11, 16, 23]
  | _ => [6, 10, 15, 21]

/-- `S[i] = SROW[i[5:4]][i[1:0]]` (R181). -/
def sOf (i : Nat) : Nat := (sRow (i / 16)).getD (i % 4) 0

/-- IV, the initial accumulator (R182). -/
def iv : Quad := ⟨0x67452301, 0xefcdab89, 0x98badcfe, 0x10325476⟩

/-- The padding marker (R183). -/
def padMarker : Byte := 0x80#8

/-- The padding fill byte (R183). -/
def padFill : Byte := 0x00#8

end Sys2Proof.Machine
end

