-- ==== Sys2Proof/Config.lean ====
section
/-! DEFINITION. The implementation parameters (spec 00 R8). State carries one `Params`, which no step writes,
so that a statement about every state is a statement about every parameter set (log 1). Nothing of this hardware
is an open VALUE of a running instruction, so there is no opaque constant here. -/

namespace Sys2Proof

/-- `P_ENGINE` (R8): rounds per clock, or the 64-stage pipeline holding at most one block. -/
inductive Engine where
  | seq
  | unroll2
  | unroll4
  | unroll8
  | unroll16
  | unroll64
  | pipe64
deriving DecidableEq, Repr

/-- The parameters of R8. `lStep` and `lFinish` are the cycles BUSY stays 1 after a command with exactly one STEP and
no FINISH, and after a FINISH at offset o. -/
structure Params where
  engine     : Engine
  hasRawPort : Bool
  lStep      : Nat
  lFinish    : Vector Nat 64
deriving DecidableEq, Repr

/-- A legal parameter set: every latency is at least 1 (R8, R245). For the pipeline, which keeps BUSY = 1 until the block
has left stage 63 and is accumulated (R132), a step takes at least 65 cycles, and a FINISH at least 65 for each of its one
or two blocks, since the second enters with the first's ACC (DEDUCED, log 11). -/
abbrev Params.Legal (p : Params) : Prop :=
  1 ≤ p.lStep ∧ (∀ o : Fin 64, 1 ≤ p.lFinish[o]) ∧
    (p.engine = .pipe64 → 65 ≤ p.lStep ∧ ∀ o : Fin 64, 65 * (if o.val < 56 then 1 else 2) ≤ p.lFinish[o])

end Sys2Proof
end

