-- ==== Sys2Proof/Machine/Timing.lean ====
section
/-! DEFINITION. The padding length (spec 43 R150, R154) and the latencies of the reference designs (spec 70 R245, 42 R130
to R132), which no architectural result depends on. -/

namespace Sys2Proof.Machine

/-- `padlen` of R150 at offset o: 56 - o below 56, else 120 - o. -/
def padLength (o : Nat) : Nat := if o < 56 then 56 - o else 120 - o

/-- Whether the engine is the 64-stage pipeline, whose stage registers hold the block (R132). -/
def pipelined : Engine → Bool
  | .seq => false
  | .unroll2 => false
  | .unroll4 => false
  | .unroll8 => false
  | .unroll16 => false
  | .unroll64 => false
  | .pipe64 => true

/-- The rounds one ROUND edge applies (R130, R131). In the pipeline a block advances one stage, that is one round, per
edge (R132). -/
def roundsPerEdge : Engine → Nat
  | .seq => 1
  | .unroll2 => 2
  | .unroll4 => 4
  | .unroll8 => 8
  | .unroll16 => 16
  | .unroll64 => 64
  | .pipe64 => 1

/-- `L_STEP` of the reference design: the ROUND edges and one ACCUM edge, 64/k + 1 (R130, R131, R245). For the pipeline,
for which R132 says only `L_STEP >= 65`, that this is the least value is the model's choice (log 11). -/
def referenceLStep (e : Engine) : Nat := 64 / roundsPerEdge e + 1

/-- `L_FINISH(o)` of the reference design: padlen(o) PAD edges, one LENW and one OUT edge, and one or two STEPs (R158 for
SEQ, R245 for SEQ and UNROLLk). For the pipeline the spec gives no `L_FINISH`: that R158's controller runs there too, so
that the value is padlen(o) + 2 + 65 * (1 + [o >= 56]), is the model's choice (DESIGN CHOICE, log 11). -/
def referenceLFinish (e : Engine) (o : Nat) : Nat :=
  padLength o + 2 + referenceLStep e * (if o < 56 then 1 else 2)

/-- The parameter set of an engine at its reference latencies. -/
def referenceParams (e : Engine) (hasRaw : Bool) : Params where
  engine := e
  hasRawPort := hasRaw
  lStep := referenceLStep e
  lFinish := ⟨((List.range 64).map (referenceLFinish e)).toArray, by simp⟩

end Sys2Proof.Machine
end

