-- ==== Sys2Proof/Machine/State.lean ====
section
/-! DEFINITION. The state of one MD5-CORE instance (spec 10), the reasons a step can stop, and the state after reset
(spec 70 R230). -/

namespace Sys2Proof.Machine

/-- The block buffer BUF (R26, R50) as (index, byte) pairs, indexes strictly rising, none below 64 listed with the byte an
unlisted index reads as (`Memory.wf`). -/
abbrev Memory := List Host.Cell

/-- MODE (R33). -/
inductive Mode where
  | active
  | finished
deriving DecidableEq, Repr

/-- The error causes of R200, in the order of their codes 0 to 6. Code 7 is never raised. -/
inductive Cause where
  | none
  | illegalOp
  | reservedBits
  | afterFinish
  | commitOverflow
  | rawWhileBusy
  | rawAfterFinish
deriving DecidableEq, Repr

/-- CTL of the reference controller (R32). -/
inductive Ctl where
  | idle
  | round
  | accum
  | pad
  | lenw
  | out
deriving DecidableEq, Repr

/-- RET: where the controller goes after ACCUM (R32). -/
inductive Ret where
  | idle
  | pad
  | out
deriving DecidableEq, Repr

/-- The registers a command's transaction transforms (R14, R20): ACC, LEN, BUF, DIG and MODE. -/
structure Context where
  /-- ACC[0..3] (R23). -/
  acc  : Quad
  /-- LEN (R24). -/
  len  : Len
  /-- BUF[0..63] (R26). -/
  buf  : Memory
  /-- DIG[0..15] (R28). -/
  dig  : Vector Byte 16
  /-- MODE (R33). -/
  mode : Mode
deriving DecidableEq, Repr

/-- A stage register of the pipeline: a working set and the message words of its block (R132). -/
structure Stage where
  work  : Quad
  words : Vector Word 16
deriving DecidableEq, Repr

/-- A command whose effect is being executed (R34, log 5): the BUSY cycles still to come after the current one, and the
transaction-level values every implementation must present when BUSY falls (R14, R133). -/
structure Flight where
  left   : Nat
  result : Context
deriving DecidableEq, Repr

/-- What the host drives at one rising edge (R70): `rst`; `cmd` when `cmd_valid` = 1; the raw bundle when `raw_we` = 1
(R76). `hold` says whether the host offers the command again at the next edge if it is not accepted at this one (R71). -/
structure Pins where
  rst  : Bool := false
  cmd  : Option (BitVec 16) := none
  hold : Bool := true
  raw  : Option (BitVec 14) := none
deriving DecidableEq, Repr

/-- One entry of the host's queue (log 2): the pins of one edge, or WAIT, which drives nothing until `status.BUSY` = 0
(R62, R83). -/
inductive HostAction where
  | drive (p : Pins)
  | wait
deriving DecidableEq, Repr

/-- Everything one instance holds. -/
structure State where
  /-- The implementation parameters (R8), which no step writes (R22, log 1). -/
  params  : Params
  /-- The architectural registers ACC, LEN, BUF, DIG and MODE (R20). While BUSY = 1 ACC, LEN and BUF hold the
  reference controller's intermediate values (R240, log 6). -/
  ctx     : Context
  /-- ERR (R35). -/
  err     : Bool
  /-- ECAUSE (R35). -/
  ecause  : Cause
  /-- BUSY (R34) is 1 exactly while this holds a command's pending effect. -/
  flight  : Option Flight
  /-- CTL (R32). -/
  ctl     : Ctl
  /-- RET (R32). -/
  ret     : Ret
  /-- PADLEN (R32). -/
  padlen  : BitVec 7
  /-- PADCNT (R32). -/
  padcnt  : BitVec 7
  /-- RND (R30). -/
  rnd     : BitVec 6
  /-- W[a], W[b], W[c], W[d] (R29). -/
  work    : Quad
  /-- The message words M[0..15] read at the start of a STEP (R120); with W they enter the pipeline (R132, log 11). -/
  latched : Vector Word 16
  /-- PIPE64's sixty-four stage registers: stage i is the one of round i (R132, log 11). Every other engine has none and
  leaves the field alone. -/
  stages  : Vector Stage 64
  /-- What the host will drive at the coming edges; with nothing left it drives nothing (log 2). -/
  inputs  : List HostAction
deriving DecidableEq, Repr

/-- BUSY (R34). -/
def State.busy (s : State) : Bool := s.flight.isSome

/-- No event of MD5-CORE stops the machine: an error is non-trapping and execution continues with the next command
(R207, R210). So there is no fault, and this type has no constructor (log 13). -/
inductive Fault : Type
deriving DecidableEq, Repr

/-- Why the model gives an instruction no meaning. -/
inductive Refusal where
  /-- Raised by an arm of `exec` whose instruction has no meaning yet; no arm raises it now. Safe: the model stops. -/
  | notModelled (mnemonic : String)
deriving DecidableEq, Repr

/-- The architectural registers after reset or INIT (R100, R230). -/
def Context.initial : Context where
  acc := iv
  len := 0#64
  buf := []
  dig := #v[0, 0, 0, 0, 0, 0, 0, 0, 0, 0, 0, 0, 0, 0, 0, 0]
  mode := .active

/-- The state after reset of a core with parameters p (R230). RET, PADLEN, PADCNT and W, which R230 leaves
unspecified, the latched words and the stage registers, of which it says nothing, take the values of log 3. -/
def State.afterReset (p : Params) (inputs : List HostAction) : State where
  params := p
  ctx := Context.initial
  err := false
  ecause := .none
  flight := none
  ctl := .idle
  ret := .idle
  padlen := 0#7
  padcnt := 0#7
  rnd := 0#6
  work := ⟨0#32, 0#32, 0#32, 0#32⟩
  latched := #v[0, 0, 0, 0, 0, 0, 0, 0, 0, 0, 0, 0, 0, 0, 0, 0]
  stages := Vector.replicate 64 ⟨⟨0#32, 0#32, 0#32, 0#32⟩, #v[0, 0, 0, 0, 0, 0, 0, 0, 0, 0, 0, 0, 0, 0, 0, 0]⟩
  inputs := inputs

/-- The machine right after reset: the reference parameters of R8 (SEQ, raw port present), the registers of R230, and
nothing driven by the host. -/
def State.reset : State := State.afterReset (referenceParams .seq true) []

end Sys2Proof.Machine
end

