-- ==== Sys2Proof/Machine/Operands.lean ====
section
/-! DEFINITION. Operand assembly (spec 30 R77) and the addresses the operations form (spec 10 R25, 20 R52, R53). -/

namespace Sys2Proof.Machine

/-- `OFFSET = LEN[5:0]` (R25). -/
def offset (len : Len) : BufIndex := len.extractLsb' 0 6

/-- COMMIT's operand N as a count: ARG, unsigned (R77). -/
def commitCount (n : Byte) : Nat := n.toNat

/-- The space left in the block, the most COMMIT accepts: 64 - OFFSET (R106). -/
def spaceLeft (len : Len) : Nat := 64 - (offset len).toNat

/-- `N > 64 - OFFSET` (R106, R203). -/
def commitOverflows (n : Byte) (len : Len) : Bool := spaceLeft len < commitCount n

/-- `OFFSET + N = 64`: the commit completes the block (R106). -/
def commitFills (n : Byte) (len : Len) : Bool := commitCount n == spaceLeft len

/-- The next byte completes the block: OFFSET = 63 (R101). -/
def byteFills (len : Len) : Bool := offset len == 63#6

/-- The index of byte k of message word j: 4*j + k (R52). -/
def wordByteIndex (j k : Nat) : BufIndex := BitVec.ofNat 6 (4 * j + k)

/-- The index of byte k of the length field: 56 + k (R53). -/
def lengthByteIndex (k : Nat) : BufIndex := BitVec.ofNat 6 (56 + k)

/-- `BL = LEN *64 8` (R153). -/
def bitLength (len : Len) : Len := len * 8#64

/-- Byte k of a word: `v[8k+7:8k]` (R9, R54). -/
def wordByte (v : Word) (k : Nat) : Byte := v.extractLsb' (8 * k) 8

/-- Byte k of the 64-bit length: `BL[8k+7:8k]` (R53). -/
def lenByte (v : Len) (k : Nat) : Byte := v.extractLsb' (8 * k) 8

end Sys2Proof.Machine
end

