-- ==== Sys2Proof/Machine/Ops.lean ====
section
/-! DEFINITION. The operations the meanings share: one byte of the block buffer and the wider little-endian accesses
built from it (spec 00 R11, 20 R52, R53), raising an error (00 R12), and the handshake's readiness (30 R71). -/

namespace Sys2Proof.Machine

/-- What an index that is not listed reads as: 0x00, the reset contents of BUF (R26, R230). -/
def Memory.unlisted : Byte := 0x00#8

/-- `BUF[i]` (R10). -/
def Memory.read (m : Memory) (i : BufIndex) : Byte :=
  match m with
  | [] => Memory.unlisted
  | (k, v) :: rest => if k = i.toNat then v else Memory.read rest i

/-- The list with index i at byte v put in front, or left out when v is what an unlisted index reads as. -/
def Memory.place (i : BufIndex) (v : Byte) (rest : Memory) : Memory :=
  if v = Memory.unlisted then rest else (i.toNat, v) :: rest

/-- `BUF[i] <- v` (R10), keeping the canonical form. -/
def Memory.write (m : Memory) (i : BufIndex) (v : Byte) : Memory :=
  match m with
  | [] => Memory.place i v []
  | (k, x) :: rest =>
    if i.toNat < k then Memory.place i v ((k, x) :: rest)
    else if k = i.toNat then Memory.place i v rest
    else (k, x) :: Memory.write rest i v

/-- Canonical from index `lo` on: indexes strictly rising, below 64, and no entry equal to the unlisted byte. -/
def Memory.wfFrom (lo : Nat) (m : Memory) : Bool :=
  match m with
  | [] => true
  | (k, v) :: rest =>
    decide (lo ≤ k) && decide (k < 64) && decide (v ≠ Memory.unlisted) && Memory.wfFrom (k + 1) rest

/-- The canonical form of the block buffer. -/
def Memory.wf (m : Memory) : Bool := Memory.wfFrom 0 m

/-- `M[j] = MemRead(4*j, 4)`: little-endian (R11, R52). -/
def messageWord (m : Memory) (j : Nat) : Word :=
  m.read (wordByteIndex j 3) ++ m.read (wordByteIndex j 2) ++ m.read (wordByteIndex j 1) ++ m.read (wordByteIndex j 0)

/-- The sixteen message words of the block (R121). -/
def messageWords (m : Memory) : Vector Word 16 :=
  #v[messageWord m 0, messageWord m 1, messageWord m 2, messageWord m 3,
     messageWord m 4, messageWord m 5, messageWord m 6, messageWord m 7,
     messageWord m 8, messageWord m 9, messageWord m 10, messageWord m 11,
     messageWord m 12, messageWord m 13, messageWord m 14, messageWord m 15]

/-- The first n bytes of `MemWrite(56, 8, v)`, lowest first (R11, R53). -/
def writeLengthBytes (m : Memory) (v : Len) : Nat → Memory
  | 0 => m
  | n + 1 => (writeLengthBytes m v n).write (lengthByteIndex n) (lenByte v n)

/-- `MemWrite(56, 8, v)`: the length field, little-endian (R53, R155). -/
def writeLengthField (m : Memory) (v : Len) : Memory := writeLengthBytes m v 8

/-- `DIG[4j + k] = ACC[j][8k+7:8k]` (R54, R156). -/
def serialise (q : Quad) : Vector Byte 16 :=
  #v[wordByte q.a 0, wordByte q.a 1, wordByte q.a 2, wordByte q.a 3,
     wordByte q.b 0, wordByte q.b 1, wordByte q.b 2, wordByte q.b 3,
     wordByte q.c 0, wordByte q.c 1, wordByte q.c 2, wordByte q.c 3,
     wordByte q.d 0, wordByte q.d 1, wordByte q.d 2, wordByte q.d 3]

/-- `raise Error(cause)` (R12, R207): the first error since INIT or reset is recorded, a later one changes nothing. No
other state changes: nothing is saved, no mode changes and no vector is taken. -/
def State.raise (s : State) (cause : Cause) : State :=
  if s.err then s else { s with err := true, ecause := cause }

/-- The core is ready for a command: BUSY = 0 (R71; `rst` is looked at where the edge is taken). A command that meets
BUSY = 1 is held by the host and changes nothing. -/
def whenReady (s : State) (ready : Host.Outcome State Fault Refusal) : Host.Outcome State Fault Refusal :=
  if s.busy then .next s else ready

/-- The meaning of an accepted reserved operation code: ILLEGAL_OP and nothing else (R80, R202). -/
def illegalOpcode (s : State) : Host.Outcome State Fault Refusal := whenReady s (.next (s.raise .illegalOp))

/-- One outcome after another: a stop ends both. -/
def andThen (o : Host.Outcome State Fault Refusal) (k : State → Host.Outcome State Fault Refusal) :
    Host.Outcome State Fault Refusal :=
  match o with
  | .next s => k s
  | .fault r => .fault r
  | .refused r => .refused r

end Sys2Proof.Machine
end

