-- ==== Sys2Proof/Machine/Flags.lean ====
section
/-! DEFINITION. The flags and the output ports: the cause codes (spec 60 R200), the status word (30 R74), the digest port
(30 R75) and `cmd_ready` (30 R71). No command computes a carry, overflow or comparison flag (10 R36). -/

namespace Sys2Proof.Machine

/-- ECAUSE's code (R200). -/
def Cause.code : Cause → BitVec 3
  | .none => 0#3
  | .illegalOp => 1#3
  | .reservedBits => 2#3
  | .afterFinish => 3#3
  | .commitOverflow => 4#3
  | .rawWhileBusy => 5#3
  | .rawAfterFinish => 6#3

/-- CTL's code (R32). -/
def Ctl.code : Ctl → BitVec 3
  | .idle => 0#3
  | .round => 1#3
  | .accum => 2#3
  | .pad => 3#3
  | .lenw => 4#3
  | .out => 5#3

/-- RET's code (R32). -/
def Ret.code : Ret → BitVec 2
  | .idle => 0#2
  | .pad => 1#2
  | .out => 2#2

/-- The state the controller enters after ACCUM (R32, R130). -/
def Ret.toCtl : Ret → Ctl
  | .idle => .idle
  | .pad => .pad
  | .out => .out

/-- DONE: MODE = FINISHED (R74). -/
def State.done (s : State) : Bool := s.ctx.mode == .finished

/-- The status word (R74): 0, HAS_RAW, ECAUSE, ERR, DONE, BUSY from bit 7 down. -/
def State.status (s : State) : BitVec 8 :=
  BitVec.ofBool false ++ BitVec.ofBool s.params.hasRawPort ++ s.ecause.code ++ BitVec.ofBool s.err ++
    BitVec.ofBool s.done ++ BitVec.ofBool s.busy

/-- The digest register as one number: `digest[8i+7:8i] = DIG[i]` (R75). -/
def digestBits (d : Vector Byte 16) : BitVec 128 :=
  d[15] ++ d[14] ++ d[13] ++ d[12] ++ d[11] ++ d[10] ++ d[9] ++ d[8] ++
    d[7] ++ d[6] ++ d[5] ++ d[4] ++ d[3] ++ d[2] ++ d[1] ++ d[0]

/-- The digest port (R75). -/
def State.digest (s : State) : BitVec 128 := digestBits s.ctx.dig

/-- `cmd_ready = (BUSY == 0) and (rst == 0)` (R71). -/
def State.cmdReady (s : State) (rst : Bool) : Bool := !s.busy && !rst

end Sys2Proof.Machine
end

