-- ==== Sys2Proof/Machine/Compress.lean ====
section
/-! DEFINITION. The compression step: the round functions and the rotator (spec 44), the message schedule, ROUND and STEP
(spec 42 R120 to R127). -/

namespace Sys2Proof.Machine

/-- F (R170). -/
def fF (x y z : Word) : Word := (x &&& y) ||| (~~~x &&& z)

/-- G (R171). -/
def fG (x y z : Word) : Word := (x &&& z) ||| (y &&& ~~~z)

/-- H (R172). -/
def fH (x y z : Word) : Word := x ^^^ y ^^^ z

/-- I (R173). -/
def fI (x y z : Word) : Word := y ^^^ (x ||| ~~~z)

/-- ROTL32(v, n) by R174's formula. Applied with 4 ≤ n ≤ 23 only (R181); it returns v for 0 and 32 (R174, log 15). -/
def rotl32 (v : Word) (n : Nat) : Word := (v <<< n) ||| (v >>> (32 - n))

/-- The function of round i's group `i[5:4]` (R122). -/
def roundFn (i : Nat) (x y z : Word) : Word :=
  match i / 16 with
  | 0 => fF x y z
  | 1 => fG x y z
  | 2 => fH x y z
  | _ => fI x y z

/-- The message-word index g(i) before reduction modulo 16 (R123). -/
def scheduleIndex (i : Nat) : Nat :=
  match i / 16 with
  | 0 => i
  | 1 => 5 * i + 1
  | 2 => 3 * i + 5
  | _ => 7 * i

/-- g(i) (R123). -/
def wordIndex (i : Nat) : Fin 16 := Fin.ofNat 16 (scheduleIndex i)

/-- `temp` of round i (R124). -/
def roundTemp (i : Nat) (w : Quad) (m : Vector Word 16) : Word :=
  w.a + roundFn i w.b w.c w.d + kOf i + m[wordIndex i]

/-- ROUND(i, a, b, c, d, M) (R124). -/
def round (i : Nat) (w : Quad) (m : Vector Word 16) : Quad :=
  ⟨w.d, w.b + rotl32 (roundTemp i w m) (sOf i), w.b, w.c⟩

/-- n consecutive rounds from round i on (R120, R131). -/
def rounds (m : Vector Word 16) : Nat → Nat → Quad → Quad
  | 0, _, w => w
  | n + 1, i, w => rounds m n (i + 1) (round i w m)

/-- The accumulator after a STEP on the block with message words m (R120, R126, R127). -/
def compress (acc : Quad) (m : Vector Word 16) : Quad := acc.add (rounds m 64 0 acc)

/-- STEP() on the registers: it writes ACC and nothing else (R120, R129). -/
def Context.step (c : Context) : Context := { c with acc := compress c.acc (messageWords c.buf) }

end Sys2Proof.Machine
end

