-- ==== Sys2Proof/Machine/Transactions.lean ====
section
/-! DEFINITION. The transaction-level effect of each command on ACC, LEN, BUF, DIG and MODE (spec 00 R14): PUT
(41 R101), COMMIT (41 R106) and FINISH (43 R150 to R157). -/

namespace Sys2Proof.Machine

/-- PUT's writes before its STEP: `BUF[o] <- b; LEN <- LEN +64 1` (R101). -/
def Context.append (c : Context) (b : Byte) : Context :=
  { c with buf := c.buf.write (offset c.len) b, len := c.len + 1#64 }

/-- PUT(b) (R101). -/
def Context.put (c : Context) (b : Byte) : Context :=
  if byteFills c.len then (c.append b).step else c.append b

/-- COMMIT's write before its STEP: `LEN <- LEN +64 zext_64(N)` (R106). -/
def Context.count (c : Context) (n : Byte) : Context := { c with len := c.len + n.setWidth 64 }

/-- COMMIT N's effect when N ≤ 64 - OFFSET (R106). -/
def Context.commit (c : Context) (n : Byte) : Context :=
  if commitFills n c.len then (c.count n).step else c.count n

/-- n times PUT(0x00) (R150, R151). -/
def Context.putFill (c : Context) : Nat → Context
  | 0 => c
  | n + 1 => (c.put padFill).putFill n

/-- FINISH's padding: the marker and padlen - 1 fill bytes, through PUT (R150, R151). -/
def Context.pad (c : Context) : Context := (c.put padMarker).putFill (padLength (offset c.len).toNat - 1)

/-- `LEN <- LEN -64 padlen; MemWrite(56, 8, LEN *64 8)` (R152, R153, R155). -/
def Context.writeLength (c : Context) (padlen : BitVec 7) : Context :=
  { c with
    len := c.len - padlen.setWidth 64
    buf := writeLengthField c.buf (bitLength (c.len - padlen.setWidth 64)) }

/-- `DIG[4j+k] <- ACC[j][8k+7:8k]; MODE <- FINISHED` (R156, R157). -/
def Context.emit (c : Context) : Context := { c with dig := serialise c.acc, mode := .finished }

/-- FINISH's effect in ACTIVE (R150). -/
def Context.finish (c : Context) : Context :=
  (c.pad.writeLength (BitVec.ofNat 7 (padLength (offset c.len).toNat))).step.emit

end Sys2Proof.Machine
end

