-- ==== Sys2Proof/Machine/Engine.lean ====
section
/-! DEFINITION. The engine: the reference controller of STEP (spec 42 R130 to R132) and of FINISH (43 R158), edge by edge,
the start of a command that needs it, and BUSY's duration (10 R34, 00 R8). -/

namespace Sys2Proof.Machine

/-- The start of a STEP: `M[j] <- MemRead(4*j, 4); (W[a..d]) <- ACC; RND <- 0; CTL <- ROUND`, returning to r
(R120, R130, R158). -/
def State.startStep (s : State) (r : Ret) : State :=
  { s with
    work := s.ctx.acc
    rnd := 0#6
    latched := messageWords s.ctx.buf
    ret := r
    ctl := .round }

/-- The working set and the message words a ROUND edge takes in: W and the words in BUF (R121, R130); in the pipeline W and
the latched words for round 0, then what the stage before holds (R132, log 11). -/
def State.roundInput (s : State) : Stage :=
  if pipelined s.params.engine then
    if s.rnd = 0#6 then ⟨s.work, s.latched⟩ else s.stages[(s.rnd - 1#6).toFin]
  else ⟨s.work, messageWords s.ctx.buf⟩

/-- What a ROUND edge makes of it: k rounds from RND on (R124, R131), with the same message words. -/
def State.roundResult (s : State) : Stage :=
  ⟨rounds s.roundInput.words (roundsPerEdge s.params.engine) s.rnd.toNat s.roundInput.work, s.roundInput.words⟩

/-- Where a ROUND edge's result goes: to W (R130, R131); in the pipeline to the stage of that round, with the block's
message words, the other stages staying as they are (R132, log 11). -/
def State.putRound (s : State) (r : Stage) : State :=
  if pipelined s.params.engine then { s with stages := s.stages.set s.rnd.toNat r s.rnd.isLt }
  else { s with work := r.work }

/-- CTL = ROUND: k rounds from RND on; after round 63 go to ACCUM, else advance RND by k (R130, R131). -/
def State.roundEdge (s : State) : State :=
  let k := roundsPerEdge s.params.engine
  let s' := s.putRound s.roundResult
  if s.rnd.toNat + k < 64 then { s' with rnd := s.rnd + BitVec.ofNat 6 k } else { s' with ctl := .accum }

/-- The working set after round 63: W (R127), or in the pipeline the one that leaves stage 63 (R132). -/
def State.stepOutput (s : State) : Quad := if pipelined s.params.engine then s.stages[63].work else s.work

/-- CTL = ACCUM: `ACC[j] <- ACC[j] +32 W[j]; CTL <- RET` (R127, R130). -/
def State.accumEdge (s : State) : State :=
  { s with ctx := { s.ctx with acc := s.ctx.acc.add s.stepOutput }, ctl := s.ret.toCtl }

/-- The byte a PAD edge stores (R158). -/
def State.padByte (s : State) : Byte := if s.padcnt = 0#7 then padMarker else padFill

/-- CTL = PAD (R158). -/
def State.padEdge (s : State) : State :=
  let s' := { s with ctx := s.ctx.append s.padByte, padcnt := s.padcnt + 1#7 }
  if byteFills s.ctx.len then s'.startStep .pad
  else if s.padcnt + 1#7 = s.padlen then { s' with ctl := .lenw }
  else s'

/-- CTL = LENW (R158). -/
def State.lenwEdge (s : State) : State := { s with ctx := s.ctx.writeLength s.padlen }.startStep .out

/-- CTL = OUT (R158). -/
def State.outEdge (s : State) : State := { s with ctx := s.ctx.emit, ctl := .idle }

/-- One rising edge of the reference controller (R130, R131, R132, R158). -/
def State.controllerEdge (s : State) : State :=
  match s.ctl with
  | .idle => s
  | .round => s.roundEdge
  | .accum => s.accumEdge
  | .pad => s.padEdge
  | .lenw => s.lenwEdge
  | .out => s.outEdge

/-- BUSY becomes 1 for L cycles, at whose end the registers hold `result` (R14, R34). R8 gives L ≥ 1; L = 0 acts as 1
(log 5). -/
def State.launch (s : State) (cycles : Nat) (result : Context) : State :=
  { s with flight := some ⟨cycles - 1, result⟩ }

/-- An accepted WRITE or COMMIT: at once, or, when it completes a block, by a STEP during L_STEP cycles of BUSY
(R102, R106, R130). `accepted` holds the command's BUF and LEN update, `result` its whole effect. -/
def State.absorb (s : State) (fills : Bool) (accepted result : Context) : State :=
  if fills then ({ s with ctx := accepted }.startStep .idle).launch s.params.lStep result
  else { s with ctx := result }

/-- The cycles of a FINISH accepted at this state: L_FINISH(OFFSET) (R8, R34). -/
def State.finishCycles (s : State) : Nat := s.params.lFinish[(offset s.ctx.len).toFin]

/-- An accepted FINISH: `PADLEN <- padlen(o); PADCNT <- 0; CTL <- PAD` (R158), and BUSY for L_FINISH(o) cycles (R150). -/
def State.startFinish (s : State) : State :=
  { s with
    padlen := BitVec.ofNat 7 (padLength (offset s.ctx.len).toNat)
    padcnt := 0#7
    ctl := .pad }.launch s.finishCycles s.ctx.finish

/-- The controller's edge while more BUSY cycles follow: a controller that is about to become idle too early for this
latency stays where it is (R14; log 6). -/
def State.engineProgress (s : State) : State := if s.controllerEdge.ctl = .idle then s else s.controllerEdge

/-- The edge at which BUSY falls: every architectural register takes its transaction-level value and the controller is
idle (R14, R133, R240). W, RND, RET, PADLEN, PADCNT, the latched words and the stages, which R29, R30 and U2 leave
unspecified while BUSY = 0, keep what the controller last put there, mid-step values if it was not done: the model's choice
(DESIGN CHOICE, log 18). -/
def State.engineComplete (s : State) (result : Context) : State :=
  { s.controllerEdge with ctx := result, ctl := .idle, flight := none }

/-- One rising edge of the engine (R34): nothing while BUSY = 0; progress, or completion on the last BUSY cycle. -/
def State.engineEdge (s : State) : State :=
  match s.flight with
  | none => s
  | some ⟨0, result⟩ => s.engineComplete result
  | some ⟨n + 1, result⟩ => { s.engineProgress with flight := some ⟨n, result⟩ }

end Sys2Proof.Machine
end

