-- ==== Sys2Proof/Machine/Feed.lean ====
section
/-! DEFINITION. The meanings of INIT, WRITE, RAW_WRITE and COMMIT (spec 41). The pseudocode of a command runs atomically
at the accepting edge (00 R14); a decode error is found before (30 R79, `Machine/Edge.lean`). -/

namespace Sys2Proof.Machine

/-- INIT (R100): the registers of a new context; ERR and ECAUSE cleared; BUSY stays 0. -/
def execInit (s : State) : Host.Outcome State Fault Refusal :=
  whenReady s (.next { s with ctx := Context.initial, err := false, ecause := .none })

/-- WRITE b (R102). -/
def execWrite (b : Byte) (s : State) : Host.Outcome State Fault Refusal :=
  whenReady s <|
    if s.ctx.mode = .finished then .next (s.raise .afterFinish)
    else .next (s.absorb (byteFills s.ctx.len) (s.ctx.append b) (s.ctx.put b))

/-- COMMIT N (R106), with the checks in the order of R206 (a). Without the raw port it is ILLEGAL_OP (R79). -/
def execCommit (n : Byte) (s : State) : Host.Outcome State Fault Refusal :=
  whenReady s <|
    if s.params.hasRawPort = false then .next (s.raise .illegalOp)
    else if s.ctx.mode = .finished then .next (s.raise .afterFinish)
    else if commitOverflows n s.ctx.len then .next (s.raise .commitOverflow)
    else .next (s.absorb (commitFills n s.ctx.len) (s.ctx.count n) (s.ctx.commit n))

/-- RAW_WRITE a, d (R104): no handshake, so it is refused with an error while BUSY = 1 (R204, R205). On a core without
the raw port the pins do not exist and nothing happens (R76, log 8). -/
def execRawWrite (a : BufIndex) (d : Byte) (s : State) : Host.Outcome State Fault Refusal :=
  if s.params.hasRawPort = false then .next s
  else if s.busy then .next (s.raise .rawWhileBusy)
  else if s.ctx.mode = .finished then .next (s.raise .rawAfterFinish)
  else .next { s with ctx := { s.ctx with buf := s.ctx.buf.write a d } }

end Sys2Proof.Machine
end

