-- ==== Sys2Proof/Machine/Finish.lean ====
section
/-! DEFINITION. The meaning of FINISH (spec 43). -/

namespace Sys2Proof.Machine

/-- FINISH (R150): in ACTIVE it starts the padding controller and owes the whole finalisation when BUSY falls; in FINISHED
it raises AFTER_FINISH. -/
def execFinish (s : State) : Host.Outcome State Fault Refusal :=
  whenReady s <|
    if s.ctx.mode = .finished then .next (s.raise .afterFinish)
    else .next s.startFinish

end Sys2Proof.Machine
end

