-- ==== Sys2Proof/Machine/Reserved.lean ====
section
/-! DEFINITION. The meanings of the reserved operation codes (spec 30 R80, 60 R202): each raises ILLEGAL_OP, whatever its
other bits are, and has no other effect. -/

namespace Sys2Proof.Machine

/-- OP 0x0 (R78, R202). -/
def execReservedOp0 (_low : BitVec 12) (s : State) : Host.Outcome State Fault Refusal := illegalOpcode s

/-- OP 0x5 (R78, R202). -/
def execReservedOp5 (_low : BitVec 12) (s : State) : Host.Outcome State Fault Refusal := illegalOpcode s

/-- OP 0x6 (R78, R202). -/
def execReservedOp6 (_low : BitVec 12) (s : State) : Host.Outcome State Fault Refusal := illegalOpcode s

/-- OP 0x7 (R78, R202). -/
def execReservedOp7 (_low : BitVec 12) (s : State) : Host.Outcome State Fault Refusal := illegalOpcode s

/-- OP 0x8 (R78, R202). -/
def execReservedOp8 (_low : BitVec 12) (s : State) : Host.Outcome State Fault Refusal := illegalOpcode s

/-- OP 0x9 (R78, R202). -/
def execReservedOp9 (_low : BitVec 12) (s : State) : Host.Outcome State Fault Refusal := illegalOpcode s

/-- OP 0xA (R78, R202). -/
def execReservedOpA (_low : BitVec 12) (s : State) : Host.Outcome State Fault Refusal := illegalOpcode s

/-- OP 0xB (R78, R202). -/
def execReservedOpB (_low : BitVec 12) (s : State) : Host.Outcome State Fault Refusal := illegalOpcode s

/-- OP 0xC (R78, R202). -/
def execReservedOpC (_low : BitVec 12) (s : State) : Host.Outcome State Fault Refusal := illegalOpcode s

/-- OP 0xD (R78, R202). -/
def execReservedOpD (_low : BitVec 12) (s : State) : Host.Outcome State Fault Refusal := illegalOpcode s

/-- OP 0xE (R78, R202). -/
def execReservedOpE (_low : BitVec 12) (s : State) : Host.Outcome State Fault Refusal := illegalOpcode s

/-- OP 0xF (R78, R202). -/
def execReservedOpF (_low : BitVec 12) (s : State) : Host.Outcome State Fault Refusal := illegalOpcode s

end Sys2Proof.Machine
end

