-- ==== Sys2Proof/Machine/Dispatch.lean ====
section
/-! DEFINITION. The dispatch: one arm per constructor of Instr, each one call of its meaning. -/

namespace Sys2Proof.Machine

def exec (i : Instr) (s : State) : Host.Outcome State Fault Refusal :=
  match i with
  | .init => Sys2Proof.Machine.execInit s
  | .write b => Sys2Proof.Machine.execWrite b s
  | .commit n => Sys2Proof.Machine.execCommit n s
  | .finish => Sys2Proof.Machine.execFinish s
  | .rawWrite a d => Sys2Proof.Machine.execRawWrite a d s
  | .reservedOp0 low => Sys2Proof.Machine.execReservedOp0 low s
  | .reservedOp5 low => Sys2Proof.Machine.execReservedOp5 low s
  | .reservedOp6 low => Sys2Proof.Machine.execReservedOp6 low s
  | .reservedOp7 low => Sys2Proof.Machine.execReservedOp7 low s
  | .reservedOp8 low => Sys2Proof.Machine.execReservedOp8 low s
  | .reservedOp9 low => Sys2Proof.Machine.execReservedOp9 low s
  | .reservedOpA low => Sys2Proof.Machine.execReservedOpA low s
  | .reservedOpB low => Sys2Proof.Machine.execReservedOpB low s
  | .reservedOpC low => Sys2Proof.Machine.execReservedOpC low s
  | .reservedOpD low => Sys2Proof.Machine.execReservedOpD low s
  | .reservedOpE low => Sys2Proof.Machine.execReservedOpE low s
  | .reservedOpF low => Sys2Proof.Machine.execReservedOpF low s

end Sys2Proof.Machine
end

