-- ==== Sys2Proof/Machine/Edge.lean ====
section
/-! DEFINITION. One rising edge of `clk` (spec 20 R61, 30 R71, 41 R105, 70 R231): reset; else the raw write, then the
accepted command on the state the raw write left, or the engine's edge while BUSY = 1. -/

namespace Sys2Proof.Machine

/-- The pins of the next edge and what is left of the host's queue. A WAIT that finds BUSY = 0 takes no edge (R83). -/
def nextPins (busy : Bool) : List HostAction → Pins × List HostAction
  | [] => ({}, [])
  | .drive p :: rest => (p, rest)
  | .wait :: rest => if busy then ({}, .wait :: rest) else nextPins busy rest

/-- A command that is not accepted is offered again at the next edge, alone, unless the host withdraws it (R71). -/
def Pins.heldOver (p : Pins) (accepted : Bool) : List HostAction :=
  if p.cmd.isSome && p.hold && !accepted then [.drive { cmd := p.cmd }] else []

/-- The state with the host's queue after an edge with pins p and queue rest. -/
def State.afterPins (s : State) (p : Pins) (rest : List HostAction) : State :=
  { s with inputs := p.heldOver (s.cmdReady p.rst) ++ rest }

/-- What a word that decodes to no instruction does (R79, R80, R202): its error, and for a bundle on a core without raw
pins nothing (R76). -/
def State.rejected (s : State) : Reject → State
  | .illegalOp => s.raise .illegalOp
  | .reservedBits => s.raise .reservedBits
  | .noRawPort => s

/-- A port's word at this edge: the decoded instruction runs, a rejected word raises its error, no word does nothing. -/
def perform (w : Option PortWord) (s : State) : Host.Outcome State Fault Refusal :=
  match w with
  | none => .next s
  | some pw =>
    match decode s.params.hasRawPort pw with
    | .ok i => exec i s
    | .error r => .next (s.rejected r)

/-- The command side of an edge without reset: held and the engine advances while BUSY = 1, else accepted (R71). -/
def commandPhase (p : Pins) (s : State) : Host.Outcome State Fault Refusal :=
  if s.busy then .next s.engineEdge else perform (p.cmd.map .command) s

/-- An edge with rst = 1: all state takes its reset value; nothing is accepted, written or raised (R231). -/
def State.resetEdge (s : State) : State := State.afterReset s.params s.inputs

/-- An edge with pins p, the queue already advanced. -/
def edge (p : Pins) (s : State) : Host.Outcome State Fault Refusal :=
  if p.rst then .next s.resetEdge
  else andThen (perform (p.raw.map .raw) s) (commandPhase p)

/-- One rising edge of `clk`. -/
def clockEdge (s : State) : Host.Outcome State Fault Refusal :=
  edge (nextPins s.busy s.inputs).1 (s.afterPins (nextPins s.busy s.inputs).1 (nextPins s.busy s.inputs).2)

/-- The pins that present one table row's bits at one edge (log 9). -/
def pinsFor : PortWord → Pins
  | .command c => { cmd := some c }
  | .raw bundle => { raw := some bundle }

end Sys2Proof.Machine
end

