-- ==== Sys2Proof/Machine/Step.lean ====
section
/-! DEFINITION. One step of the machine: one rising edge of `clk` (spec 30 R70). -/

namespace Sys2Proof.Machine

def step (s : State) : Host.Outcome State Fault Refusal := clockEdge s

/-- The state with one table row's bits driven by the host at the very next edge (log 9, log 12). -/
def State.withFetchWord (s : State) (nbits w : Nat) : State :=
  { s with inputs := .drive (pinsFor (tablePortWord nbits w)) :: s.inputs }

end Sys2Proof.Machine
end

