-- ==== Sys2Proof/Machine/Assembler.lean ====
section
/-! DEFINITION. The assembler syntax and the pseudo-instructions of the spec's programs (spec 30 R82, R83), as what the
host drives: one action an edge, a command held until it is accepted. -/

namespace Sys2Proof.Machine

/-- A line of R82 or R83. -/
inductive AsmLine where
  | init
  | write (b : Byte)
  | commit (n : Byte)
  | finish
  | raw (a : BufIndex) (b : Byte)
  | word (w : BitVec 16)
  | feed (bs : List Byte)
  | rawfill (a : BufIndex) (bs : List Byte)
  | wait
  | hash (bs : List Byte)
deriving DecidableEq, Repr

/-- The host's action that presents one instruction (R82). -/
def present (i : Instr) : HostAction := .drive (pinsFor (encode i))

/-- `FEED b0, ..., bn-1`: one WRITE per byte, in order (R83, R103). -/
def feedActions (bs : List Byte) : List HostAction := bs.map fun b => present (.write b)

/-- `RAWFILL a, b0, ..., bn-1`: `RAW a, b0`, `RAW a+1, b1`, ... (R83; a + n ≤ 64 there). -/
def rawfillActions (a : BufIndex) : List Byte → List HostAction
  | [] => []
  | b :: bs => present (.rawWrite a b) :: rawfillActions (a + 1) bs

/-- The host's actions of one line (R82, R83). -/
def AsmLine.expand : AsmLine → List HostAction
  | .init => [present .init]
  | .write b => [present (.write b)]
  | .commit n => [present (.commit n)]
  | .finish => [present .finish]
  | .raw a b => [present (.rawWrite a b)]
  | .word w => [.drive (pinsFor (.command w))]
  | .feed bs => feedActions bs
  | .rawfill a bs => rawfillActions a bs
  | .wait => [.wait]
  | .hash bs => present .init :: (feedActions bs ++ [present .finish, .wait])

/-- The host's actions of a program. -/
def assemble (lines : List AsmLine) : List HostAction := lines.flatMap AsmLine.expand

end Sys2Proof.Machine
end

