-- ==== Sys2Proof/Safety.lean ====
section
/-! DEFINITION. The terms the claims use: the registers a state shows or owes, the invariant, clean runs (spec 60 R209,
93 U4), the message digest of a whole byte sequence, and counts of STEPs (43 R159). -/

namespace Sys2Proof.Machine

/-- The transaction-level registers (R14): those the core holds, or, while BUSY = 1, those it owes when BUSY falls. -/
def State.settled (s : State) : Context :=
  match s.flight with
  | none => s.ctx
  | some f => f.result

/-- BUF[i] as the state holds it now. -/
def State.bufByte (s : State) (i : BufIndex) : Byte := Memory.read s.ctx.buf i

/-- The digest on the port means the message's digest: DONE = 1, BUSY = 0 and no host error (R75, R209, R242). -/
def State.digestValid (s : State) : Bool := s.done && !s.busy && !s.err

/-- The digest register of a context that has not finished (R28). -/
def zeroDigest : Vector Byte 16 := #v[0, 0, 0, 0, 0, 0, 0, 0, 0, 0, 0, 0, 0, 0, 0, 0]

/-- n rising edges of the reference controller alone (R130, R158). -/
def State.controllerRun (s : State) : Nat → State
  | 0 => s
  | n + 1 => s.controllerEdge.controllerRun n

/-- A context's buffer is canonical, and DIG is zero while it is ACTIVE (R28). -/
def Context.Ok (c : Context) : Prop := c.buf.wf = true ∧ (c.mode = .active → c.dig = zeroDigest)

/-- The machine invariant: both contexts are in order (R26, R28), CTL is not IDLE exactly while BUSY = 1 (R32), MODE is
ACTIVE while BUSY = 1 (R33, R150), and ECAUSE is NONE exactly while ERR = 0 (R35, R200). -/
structure State.Inv (s : State) : Prop where
  ctxOk     : s.ctx.Ok
  owedOk    : s.settled.Ok
  busyCtl   : s.ctl ≠ .idle ↔ s.busy = true
  busyMode  : s.busy = true → s.ctx.mode = .active
  errCause  : s.err = true ↔ s.ecause ≠ .none

/-- The reference controller, left alone, becomes idle with exactly the registers that are owed (R14, R133). -/
def State.ControllerOnCourse (s : State) : Prop :=
  ∃ n, (s.controllerRun n).ctl = .idle ∧ (s.controllerRun n).ctx = s.settled

/-- No edge of the queue has rst = 1. -/
def NoReset (l : List HostAction) : Prop := ∀ p, HostAction.drive p ∈ l → p.rst = false

/-- No edge of the queue carries a raw write. -/
def NoRawWrite (l : List HostAction) : Prop := ∀ p, HostAction.drive p ∈ l → p.raw = none

/-- `FEED`: PUT of each byte in order (R101, R103). -/
def Context.feed (c : Context) (bs : List Byte) : Context := bs.foldl Context.put c

/-- The instructions one after another, each on the state the one before left. -/
def execAll : List Instr → State → Host.Outcome State Fault Refusal
  | [], s => .next s
  | i :: is, s => andThen (exec i s) (execAll is)

/-- `RAW a, b0`, `RAW a+1, b1`, ... (R83). -/
def rawfill (a : BufIndex) : List Byte → List Instr
  | [] => []
  | b :: bs => .rawWrite a b :: rawfill (a + 1) bs

/-- STEPs run while the bytes are PUT one after another (R38, R101). -/
def Context.stepsInPuts (c : Context) : List Byte → Nat
  | [] => 0
  | b :: bs => (if byteFills c.len then 1 else 0) + (c.put b).stepsInPuts bs

/-- FINISH's padding bytes (R151). -/
def padBytes (padlen : Nat) : List Byte := padMarker :: List.replicate (padlen - 1) padFill

/-- STEPs run by FINISH: those its padding completes, and the final one (R151, R155). -/
def Context.stepsInFinish (c : Context) : Nat :=
  c.stepsInPuts (padBytes (padLength (offset c.len).toNat)) + 1

/-- The eight bytes of the length field of a message of L bytes, lowest first (R53, R153). -/
def lengthBytes (count : Nat) : List Byte := (List.range 8).map (lenByte (bitLength (BitVec.ofNat 64 count)))

/-- The padded message: marker, fill and length (R15, R151, R155). -/
def paddedMessage (msg : List Byte) : List Byte :=
  msg ++ padBytes (padLength (msg.length % 64)) ++ lengthBytes msg.length

/-- Byte i of a byte sequence. -/
def byteAt (bs : List Byte) (i : Nat) : Byte := bs.getD i 0

/-- Message word j of block n of a byte sequence: little-endian (R52). -/
def blockWord (bs : List Byte) (n j : Nat) : Word :=
  byteAt bs (64 * n + 4 * j + 3) ++ byteAt bs (64 * n + 4 * j + 2) ++
    byteAt bs (64 * n + 4 * j + 1) ++ byteAt bs (64 * n + 4 * j)

/-- The sixteen words of block n of a byte sequence. -/
def blockWords (bs : List Byte) (n : Nat) : Vector Word 16 :=
  ⟨((List.range 16).map (blockWord bs n)).toArray, by simp⟩

/-- The accumulator after the first n blocks of a byte sequence (R1, R15: Merkle-Damgård chaining from IV). -/
def chain (bs : List Byte) : Nat → Quad
  | 0 => iv
  | n + 1 => compress (chain bs n) (blockWords bs n)

/-- The MD5 digest of a whole message, without streaming: pad, split into blocks, chain, serialise (R1, R2). -/
def md5 (msg : List Byte) : Vector Byte 16 :=
  serialise (chain (paddedMessage msg) ((paddedMessage msg).length / 64))

end Sys2Proof.Machine
end

