-- ==== Sys2Proof/Certificates/Slice0/Obligations.lean ====
section
/-! DEFINITION. The statements for the provers. Each docstring names the rule of spec/ it formalises. -/

open Sys2Proof Sys2Proof.Machine

/-! ### Reset and the two ports -/

/-- R230: the reset values the spec states, for every parameter set, and the reset state is one of these. -/
def Obligations.ResetLeavesTheSpecsValues : Prop :=
  State.reset = State.afterReset State.reset.params State.reset.inputs ∧
  ∀ (p : Params) (l : List HostAction),
    (State.afterReset p l).ctx.acc = ⟨0x67452301, 0xefcdab89, 0x98badcfe, 0x10325476⟩ ∧
    (State.afterReset p l).ctx.len = 0#64 ∧
    (∀ i, (State.afterReset p l).bufByte i = 0x00#8) ∧
    (∀ i : Fin 16, (State.afterReset p l).ctx.dig[i] = 0x00#8) ∧
    (State.afterReset p l).ctx.mode = .active ∧
    (State.afterReset p l).busy = false ∧
    (State.afterReset p l).err = false ∧
    (State.afterReset p l).ecause = .none ∧
    (State.afterReset p l).ctl = .idle ∧
    (State.afterReset p l).rnd = 0#6 ∧
    (State.afterReset p l).status = (if p.hasRawPort then 0x40#8 else 0x00#8) ∧
    (State.afterReset p l).digest = 0#128

/-- R231: an edge with rst = 1 gives every register its reset value whatever else is happening; the command at it is not
accepted and the raw write raises nothing. -/
def Obligations.ResetEdgeAbandonsEverything : Prop :=
  ∀ (s : State) (p : Pins) (rest : List HostAction), nextPins s.busy s.inputs = (p, rest) → p.rst = true →
    ∃ t, step s = .next t ∧ t.params = s.params ∧
      t.ctx.acc = ⟨0x67452301, 0xefcdab89, 0x98badcfe, 0x10325476⟩ ∧ t.ctx.len = 0#64 ∧ (∀ i, t.bufByte i = 0x00#8) ∧
      (∀ i : Fin 16, t.ctx.dig[i] = 0x00#8) ∧ t.ctx.mode = .active ∧ t.busy = false ∧ t.err = false ∧
      t.ecause = .none ∧ t.ctl = .idle ∧ t.rnd = 0#6

/-- R74: the status word, field by field. -/
def Obligations.StatusWordShowsTheFlags : Prop :=
  ∀ s : State, s.status.getLsbD 0 = s.busy ∧ s.status.getLsbD 1 = (s.ctx.mode == .finished) ∧
    s.status.getLsbD 2 = s.err ∧ s.status.extractLsb' 3 3 = s.ecause.code ∧
    s.status.getLsbD 6 = s.params.hasRawPort ∧ s.status.getLsbD 7 = false

/-- R75, R54: the digest port shows DIG byte by byte, and the serialised accumulator word by word. -/
def Obligations.DigestPortIsLittleEndian : Prop :=
  (∀ (s : State) (i : Fin 16), s.digest.extractLsb' (8 * i) 8 = s.ctx.dig[i]) ∧
  ∀ q : Quad, (digestBits (serialise q)).extractLsb' 0 32 = q.a ∧ (digestBits (serialise q)).extractLsb' 32 32 = q.b ∧
    (digestBits (serialise q)).extractLsb' 64 32 = q.c ∧ (digestBits (serialise q)).extractLsb' 96 32 = q.d

/-- R200: the cause codes. -/
def Obligations.CauseCodesAreR200s : Prop :=
  Cause.none.code = 0#3 ∧ Cause.illegalOp.code = 1#3 ∧ Cause.reservedBits.code = 2#3 ∧ Cause.afterFinish.code = 3#3 ∧
    Cause.commitOverflow.code = 4#3 ∧ Cause.rawWhileBusy.code = 5#3 ∧ Cause.rawAfterFinish.code = 6#3 ∧
    ∀ c : Cause, c.code ≠ 7#3

/-! ### Encoding -/

/-- R76, R78: words written out from the opcode map decode to their instructions. -/
def Obligations.SpecWordsDecodeToTheirRows : Prop :=
  decode true (.command 0b0001000000000000#16) = .ok .init ∧
  decode true (.command 0b0010000001100001#16) = .ok (.write 0x61) ∧
  decode true (.command 0b0011000000000011#16) = .ok (.commit 3) ∧
  decode true (.command 0b0100000000000000#16) = .ok .finish ∧
  decode true (.raw 0b00010101111010#14) = .ok (.rawWrite 5 0x7a) ∧
  decode true (.command 0b0000000100000000#16) = .ok (.reservedOp0 0x100) ∧
  decode true (.command 0b1111111111111111#16) = .ok (.reservedOpF 0xfff)

/-- Decoding an encoded instruction that exists on the core gives it back, with every operand. -/
def Obligations.DecodeOfEncodeIsTheInstruction : Prop :=
  ∀ (hasRaw : Bool) (i : Instr), i.wellFormed hasRaw = true → decode hasRaw (encode i) = .ok i

/-- A decoded word is the encoding of the instruction read from it, and that instruction exists on the core: no two words
are one instruction. -/
def Obligations.EncodeOfDecodeIsTheWord : Prop :=
  ∀ (hasRaw : Bool) (w : PortWord) (i : Instr), decode hasRaw w = .ok i →
    encode i = w ∧ i.wellFormed hasRaw = true

/-- R79: what an accepted command word does, in the order of the decoder's checks. -/
def Obligations.AcceptedWordsFollowTheDecodeOrder : Prop :=
  ∀ (s : State) (p : Pins) (rest : List HostAction) (c : BitVec 16), nextPins s.busy s.inputs = (p, rest) →
    s.busy = false → p.rst = false → p.raw = none → p.cmd = some c →
    step s =
      (if c.toNat / 4096 ≠ 1 ∧ c.toNat / 4096 ≠ 2 ∧ c.toNat / 4096 ≠ 3 ∧ c.toNat / 4096 ≠ 4 then
        .next (State.raise { s with inputs := rest } .illegalOp)
      else if c.toNat / 4096 = 3 ∧ s.params.hasRawPort = false then
        .next (State.raise { s with inputs := rest } .illegalOp)
      else if c.toNat / 256 % 16 ≠ 0 then .next (State.raise { s with inputs := rest } .reservedBits)
      else if (c.toNat / 4096 = 1 ∨ c.toNat / 4096 = 4) ∧ c.toNat % 256 ≠ 0 then
        .next (State.raise { s with inputs := rest } .reservedBits)
      else if c.toNat / 4096 = 1 then exec .init { s with inputs := rest }
      else if c.toNat / 4096 = 2 then exec (.write (BitVec.ofNat 8 (c.toNat % 256))) { s with inputs := rest }
      else if c.toNat / 4096 = 3 then exec (.commit (BitVec.ofNat 8 (c.toNat % 256))) { s with inputs := rest }
      else exec .finish { s with inputs := rest })

/-! ### One rising edge -/

/-- R71, R72: the instruction a port presents alone at an edge of an idle core is the one the step runs, once. The pins come
from the model's queue of the host's actions (log 2). -/
def Obligations.StepRunsThePresentedInstruction : Prop :=
  ∀ (s : State) (p : Pins) (rest : List HostAction) (i : Instr), nextPins s.busy s.inputs = (p, rest) →
    s.busy = false → p.rst = false →
    (∀ c, p.raw = none → p.cmd = some c → decode s.params.hasRawPort (.command c) = .ok i →
      step s = exec i { s with inputs := rest }) ∧
    (∀ b, p.cmd = none → p.raw = some b → decode s.params.hasRawPort (.raw b) = .ok i →
      step s = exec i { s with inputs := rest })

/-- R105: at one edge the raw write comes first and the command second, on the state the raw write left, whether the
command's word is an instruction (a reserved operation code among them) or violates a reserved field. -/
def Obligations.SameEdgeRawWriteComesFirst : Prop :=
  ∀ (s : State) (p : Pins) (rest : List HostAction) (b : BitVec 14) (c : BitVec 16) (r : Instr),
    nextPins s.busy s.inputs = (p, rest) → s.busy = false → p.rst = false → p.raw = some b → p.cmd = some c →
    decode s.params.hasRawPort (.raw b) = .ok r →
    ∃ u, exec r { s with inputs := rest } = .next u ∧
      (∀ i, decode s.params.hasRawPort (.command c) = .ok i → step s = exec i u) ∧
      (decode s.params.hasRawPort (.command c) = .error .reservedBits → step s = .next (u.raise .reservedBits))

/-- R206 (c), (e): a raw write refused after FINISH does not block the command at its edge, whose own error it precedes. -/
def Obligations.RefusedRawWriteDoesNotBlockTheCommand : Prop :=
  ∀ (s : State) (p : Pins) (rest : List HostAction) (b : BitVec 14) (c : BitVec 16) (i : Instr),
    nextPins s.busy s.inputs = (p, rest) → s.busy = false → s.params.hasRawPort = true → s.ctx.mode = .finished →
    s.err = false → p.rst = false → p.raw = some b → p.cmd = some c → decode true (.command c) = .ok i →
    step s = exec i { s with inputs := rest, err := true, ecause := .rawAfterFinish }

/-- R71: while BUSY = 1 a command is held, not refused: the engine advances as if no command were offered, and the host
offers it again or not (the model's queue, log 2). -/
def Obligations.CommandIsHeldWhileBusy : Prop :=
  ∀ (s : State) (p : Pins) (rest : List HostAction) (c : BitVec 16), nextPins s.busy s.inputs = (p, rest) →
    s.busy = true → p.rst = false → p.raw = none → p.cmd = some c →
    step s = .next (State.engineEdge
      { s with inputs := (if p.hold then [.drive { cmd := some c }] else []) ++ rest })

/-- R204, R71: a raw write at an edge with BUSY = 1 is dropped and raises RAW_WHILE_BUSY, with or without a command offered
at it; the engine advances, and the host offers the command again or not (the model's queue, log 2). -/
def Obligations.RawWriteWhileBusyIsDropped : Prop :=
  ∀ (s : State) (p : Pins) (rest : List HostAction) (b : BitVec 14), nextPins s.busy s.inputs = (p, rest) →
    s.busy = true → s.params.hasRawPort = true → p.rst = false → p.raw = some b →
    step s = .next (State.engineEdge (State.raise
      { s with inputs := (if p.cmd.isSome && p.hold then [.drive { cmd := p.cmd }] else []) ++ rest } .rawWhileBusy))

/-- R218, R76: an idle core at whose ports nothing is driven holds its state; so does a core without the raw port when only
raw pins would be driven (the model's choice, log 8). The queue is the model's (log 2). -/
def Obligations.IdleCoreHoldsItsState : Prop :=
  ∀ (s : State) (p : Pins) (rest : List HostAction), nextPins s.busy s.inputs = (p, rest) →
    s.busy = false → p.rst = false → p.cmd = none → (p.raw = none ∨ s.params.hasRawPort = false) →
    step s = .next { s with inputs := rest }

/-- R207: no error, word or state stops the machine. -/
def Obligations.EveryEdgeHasANextState : Prop := ∀ s : State, ∃ t, step s = .next t

/-- R8, R22: no edge changes the implementation parameters, which the model carries in State (log 1). -/
def Obligations.ParametersNeverChange : Prop := ∀ s t : State, step s = .next t → t.params = s.params

/-- R8, R245, R132: the reference latencies are legal parameters, with the values of R245 for SEQ and every UNROLLk. For the
pipeline, of which R132 says only L_STEP >= 65, that the least is the reference L_STEP, the reference L_FINISH and the least
legal L_FINISH of 65 cycles per block are the model's (log 11). -/
def Obligations.ReferenceLatenciesAreR245s : Prop :=
  (∀ (e : Engine) (r : Bool), (referenceParams e r).Legal) ∧
  ∀ r : Bool, (referenceParams .seq r).lStep = 65 ∧ (referenceParams .unroll2 r).lStep = 33 ∧
    (referenceParams .unroll4 r).lStep = 17 ∧ (referenceParams .unroll8 r).lStep = 9 ∧
    (referenceParams .unroll16 r).lStep = 5 ∧ (referenceParams .unroll64 r).lStep = 2 ∧
    ∀ o : Fin 64,
      (referenceParams .seq r).lFinish[o] = padLength o.val + 67 + (if 56 ≤ o.val then 65 else 0) ∧
      (referenceParams .unroll2 r).lFinish[o] = padLength o.val + 2 + 33 * (if 56 ≤ o.val then 2 else 1) ∧
      (referenceParams .unroll4 r).lFinish[o] = padLength o.val + 2 + 17 * (if 56 ≤ o.val then 2 else 1) ∧
      (referenceParams .unroll8 r).lFinish[o] = padLength o.val + 2 + 9 * (if 56 ≤ o.val then 2 else 1) ∧
      (referenceParams .unroll16 r).lFinish[o] = padLength o.val + 2 + 5 * (if 56 ≤ o.val then 2 else 1) ∧
      (referenceParams .unroll64 r).lFinish[o] = padLength o.val + 2 + 2 * (if 56 ≤ o.val then 2 else 1)

/-! ### Errors -/

/-- R12: raising an error records the first cause and changes nothing else; a later one changes nothing. -/
def Obligations.RaiseRecordsTheFirstCauseOnly : Prop :=
  ∀ (s : State) (c : Cause), (s.err = false → s.raise c = { s with err := true, ecause := c }) ∧
    (s.err = true → s.raise c = s)

/-- R202: every reserved operation code raises ILLEGAL_OP and does nothing else, whatever its low bits. -/
def Obligations.ReservedOpcodesRaiseIllegalOp : Prop :=
  ∀ (low : BitVec 12) (s : State), s.busy = false →
    ∃ t, t = s.raise .illegalOp ∧
    exec (.reservedOp0 low) s = .next t ∧ exec (.reservedOp5 low) s = .next t ∧ exec (.reservedOp6 low) s = .next t ∧
    exec (.reservedOp7 low) s = .next t ∧ exec (.reservedOp8 low) s = .next t ∧ exec (.reservedOp9 low) s = .next t ∧
    exec (.reservedOpA low) s = .next t ∧ exec (.reservedOpB low) s = .next t ∧ exec (.reservedOpC low) s = .next t ∧
    exec (.reservedOpD low) s = .next t ∧ exec (.reservedOpE low) s = .next t ∧ exec (.reservedOpF low) s = .next t

/-- R201: after FINISH every action but INIT raises its error and changes nothing else; INIT starts a new context. -/
def Obligations.FinishedCoreRefusesAllButInit : Prop :=
  ∀ s : State, s.busy = false → s.ctx.mode = .finished →
    (∀ b, exec (.write b) s = .next (s.raise .afterFinish)) ∧
    (∀ n, s.params.hasRawPort = true → exec (.commit n) s = .next (s.raise .afterFinish)) ∧
    exec .finish s = .next (s.raise .afterFinish) ∧
    (∀ a d, s.params.hasRawPort = true → exec (.rawWrite a d) s = .next (s.raise .rawAfterFinish)) ∧
    ∃ t, exec .init s = .next t ∧ t.ctx = Context.initial ∧ t.err = false ∧ t.ecause = .none

/-- R207: ERR does not block commands: apart from ERR and ECAUSE an instruction does the same whatever they hold. -/
def Obligations.ErrorsDoNotBlockInstructions : Prop :=
  ∀ (i : Instr) (s t : State) (e : Bool) (c : Cause), exec i s = .next t →
    ∃ u, exec i { s with err := e, ecause := c } = .next u ∧
      { u with err := false, ecause := .none } = { t with err := false, ecause := .none }

/-- R208: ERR and ECAUSE, once an error is recorded, change only at a reset edge or an accepted INIT. -/
def Obligations.ErrorFlagsClearedOnlyByInitOrReset : Prop :=
  ∀ (s t : State) (p : Pins) (rest : List HostAction), nextPins s.busy s.inputs = (p, rest) → step s = .next t →
    s.err = true → (t.err = true ∧ t.ecause = s.ecause) ∨ p.rst = true ∨
      (s.busy = false ∧ ∃ c, p.cmd = some c ∧ decode s.params.hasRawPort (.command c) = .ok .init)

/-! ### INIT, WRITE, RAW_WRITE, COMMIT -/

/-- R100: INIT gives ACC, LEN, BUF, DIG, MODE, ERR and ECAUSE the values of an empty context and leaves BUSY 0. That it leaves
RND, CTL, RET, PADLEN, PADCNT, W, the latched words and the stages as they are is the model's choice (log 3). -/
def Obligations.InitConstructsAnEmptyContext : Prop :=
  (∀ hasRaw, decode hasRaw (.command 0x1000#16) = .ok .init) ∧
  ∀ s : State, s.busy = false →
    ∃ t, exec .init s = .next t ∧ t = { s with ctx := t.ctx, err := false, ecause := .none } ∧
      t.ctx.acc = ⟨0x67452301, 0xefcdab89, 0x98badcfe, 0x10325476⟩ ∧ t.ctx.len = 0#64 ∧ (∀ i, t.bufByte i = 0x00#8) ∧
      (∀ i : Fin 16, t.ctx.dig[i] = 0x00#8) ∧ t.ctx.mode = .active ∧ t.busy = false

/-- R102, R101, R130: WRITE stores its byte at OFFSET and counts it; at OFFSET 63 the STEP on the completed block is owed at
the end of L_STEP cycles of BUSY; in FINISHED it raises AFTER_FINISH and does nothing else. The form in which the STEP is owed
(log 5), and what the registers hold while BUSY = 1, ACC as it was, BUF and LEN updated (log 6), are the model's choices. -/
def Obligations.WriteFeedsOneByte : Prop :=
  (∀ (hasRaw : Bool) (b : Byte), decode hasRaw (.command (0x20#8 ++ b)) = .ok (.write b)) ∧
  ∀ (b : Byte) (s : State), s.busy = false →
    (s.ctx.mode = .finished → exec (.write b) s = .next (s.raise .afterFinish)) ∧
    (s.ctx.mode = .active → offset s.ctx.len ≠ 63#6 →
      exec (.write b) s = .next { s with ctx := { s.ctx with
        buf := Memory.write s.ctx.buf (offset s.ctx.len) b, len := s.ctx.len + 1#64 } }) ∧
    (s.ctx.mode = .active → offset s.ctx.len = 63#6 →
      ∃ t, exec (.write b) s = .next t ∧
        t.flight = some ⟨s.params.lStep - 1, { s.ctx with
          acc := compress s.ctx.acc (messageWords (Memory.write s.ctx.buf 63#6 b))
          buf := Memory.write s.ctx.buf 63#6 b
          len := s.ctx.len + 1#64 }⟩ ∧
        t.ctx = { s.ctx with buf := Memory.write s.ctx.buf 63#6 b, len := s.ctx.len + 1#64 } ∧
        t.err = s.err ∧ t.ecause = s.ecause ∧ t.params = s.params ∧ t.inputs = s.inputs)

/-- The model's choice (log 8): on a core without the raw port, where the action does not exist (R76), RAW_WRITE changes
nothing. -/
def Obligations.RawWriteWithoutTheRawPortIsNoChange : Prop :=
  ∀ (a : BufIndex) (d : Byte) (s : State), s.params.hasRawPort = false → exec (.rawWrite a d) s = .next s

/-- R104: RAW_WRITE stores its byte at its index and nothing else; while BUSY or after FINISH it is dropped with its error,
BUSY first. It exists only on a core with the raw port. -/
def Obligations.RawWriteStoresOneByteOrIsRefused : Prop :=
  (∀ (a : BufIndex) (d : Byte), decode true (.raw (a ++ d)) = .ok (.rawWrite a d)) ∧
  (∀ (b : BitVec 14) (i : Instr), decode false (.raw b) ≠ .ok i) ∧
  ∀ (a : BufIndex) (d : Byte) (s : State),
    (s.params.hasRawPort = true → s.busy = true → exec (.rawWrite a d) s = .next (s.raise .rawWhileBusy)) ∧
    (s.params.hasRawPort = true → s.busy = false → s.ctx.mode = .finished →
      exec (.rawWrite a d) s = .next (s.raise .rawAfterFinish)) ∧
    (s.params.hasRawPort = true → s.busy = false → s.ctx.mode = .active →
      exec (.rawWrite a d) s = .next { s with ctx := { s.ctx with buf := Memory.write s.ctx.buf a d } })

/-- R106, R203, R130: COMMIT N counts N bytes, owes a STEP when they complete the block, and is refused whole when
N > 64 - OFFSET, in FINISHED, or on a core without the raw port, in the order of its checks. The form in which the STEP is
owed (log 5), what the registers hold while BUSY = 1, ACC as it was and LEN counted (log 6), and that COMMIT has an exec on a
core without the raw port (log 16), are the model's choices. -/
def Obligations.CommitCountsRawBytes : Prop :=
  (∀ n : Byte, decode true (.command (0x30#8 ++ n)) = .ok (.commit n)) ∧
  ∀ (n : Byte) (s : State), s.busy = false →
    (s.params.hasRawPort = false → exec (.commit n) s = .next (s.raise .illegalOp)) ∧
    (s.params.hasRawPort = true → s.ctx.mode = .finished → exec (.commit n) s = .next (s.raise .afterFinish)) ∧
    (s.params.hasRawPort = true → s.ctx.mode = .active → 64 < n.toNat + (offset s.ctx.len).toNat →
      exec (.commit n) s = .next (s.raise .commitOverflow)) ∧
    (s.params.hasRawPort = true → s.ctx.mode = .active → n.toNat + (offset s.ctx.len).toNat < 64 →
      exec (.commit n) s = .next { s with ctx := { s.ctx with len := s.ctx.len + BitVec.ofNat 64 n.toNat } }) ∧
    (s.params.hasRawPort = true → s.ctx.mode = .active → n.toNat + (offset s.ctx.len).toNat = 64 →
      ∃ t, exec (.commit n) s = .next t ∧
        t.flight = some ⟨s.params.lStep - 1, { s.ctx with
          acc := compress s.ctx.acc (messageWords s.ctx.buf)
          len := s.ctx.len + BitVec.ofNat 64 n.toNat }⟩ ∧
        t.ctx = { s.ctx with len := s.ctx.len + BitVec.ofNat 64 n.toNat } ∧
        t.err = s.err ∧ t.ecause = s.ecause ∧ t.params = s.params ∧ t.inputs = s.inputs)

/-- R107: staging bytes raw at OFFSET and committing them leaves the same machine state as writing them one by one, for
every count the block has room for, and starts a STEP exactly when the block is then complete. -/
def Obligations.RawFeedEqualsWriteFeed : Prop :=
  ∀ (s : State) (bs : List Byte), s.busy = false → s.ctx.mode = .active → s.params.hasRawPort = true →
    bs.length + (offset s.ctx.len).toNat ≤ 64 →
    ∃ t, execAll (rawfill (offset s.ctx.len) bs ++ [.commit (BitVec.ofNat 8 bs.length)]) s = .next t ∧
      execAll (bs.map .write) s = .next t ∧ (t.busy = true ↔ bs.length + (offset s.ctx.len).toNat = 64)

/-- R58: a raw write of the same byte to the same index twice is the raw write once. -/
def Obligations.RawWriteIsIdempotent : Prop :=
  ∀ (a : BufIndex) (d : Byte) (s : State), s.ctx.buf.wf = true →
    execAll [.rawWrite a d, .rawWrite a d] s = exec (.rawWrite a d) s

/-- R38: outside FINISH a STEP is started exactly when the byte of a WRITE or the count of a COMMIT makes OFFSET wrap from
64 to 0; FINISH always starts the engine. -/
def Obligations.EngineStartsExactlyWhenABlockCompletes : Prop :=
  ∀ (i : Instr) (s t : State), s.busy = false → exec i s = .next t →
    (t.busy = true ↔ s.ctx.mode = .active ∧
      ((∃ b, i = .write b ∧ offset s.ctx.len = 63#6) ∨
       (∃ n, i = .commit n ∧ s.params.hasRawPort = true ∧ n.toNat + (offset s.ctx.len).toNat = 64) ∨
       i = .finish))

/-- R71: a command that meets BUSY = 1 changes nothing; that exec of a command which is not accepted is no change is the
model's choice (log 7). -/
def Obligations.CommandsChangeNothingWhileBusy : Prop :=
  ∀ (i : Instr) (s : State), i.isCommand = true → s.busy = true → exec i s = .next s

/-! ### Frames -/

/-- What WRITE leaves unchanged: every byte but the one at OFFSET (and that one too when it stores nothing), the digest and
the mode, the error flags unless the core has finished, the owed accumulator and the STEP's registers unless the block
completes, the pipeline's stages, the parameters, the host's queue, and the padding registers. That ACC and BUF hold these
values also while a completing WRITE keeps BUSY = 1 is the reference controller's (R130), the model's choice (log 6). -/
def Obligations.FrameOfWrite : Prop :=
  ∀ (b : Byte) (s t : State), exec (.write b) s = .next t →
    (∀ i, i ≠ offset s.ctx.len ∨ s.busy = true ∨ s.ctx.mode = .finished →
      t.bufByte i = s.bufByte i ∧ (s.busy = false → Memory.read t.settled.buf i = s.bufByte i)) ∧
    t.settled.dig = s.settled.dig ∧ t.settled.mode = s.settled.mode ∧
    t.ctx.acc = s.ctx.acc ∧ (offset s.ctx.len ≠ 63#6 → t.settled.acc = s.settled.acc) ∧
    (s.ctx.mode = .active → t.err = s.err ∧ t.ecause = s.ecause) ∧
    (offset s.ctx.len ≠ 63#6 → t.ctl = s.ctl ∧ t.ret = s.ret ∧ t.rnd = s.rnd ∧ t.work = s.work ∧ t.latched = s.latched) ∧
    t.stages = s.stages ∧ t.params = s.params ∧ t.inputs = s.inputs ∧ t.padlen = s.padlen ∧ t.padcnt = s.padcnt

/-- What RAW_WRITE leaves unchanged: every byte but the one at its index (and that one too when the write is refused), and
every register but the error flags, which it leaves alone when the write is performed. That it stores nothing on a core
without the raw port, where the action does not exist (R76), is the model's choice (log 8). -/
def Obligations.FrameOfRawWrite : Prop :=
  ∀ (a : BufIndex) (d : Byte) (s t : State), exec (.rawWrite a d) s = .next t →
    (∀ i, i ≠ a ∨ s.busy = true ∨ s.ctx.mode = .finished ∨ s.params.hasRawPort = false →
      t.bufByte i = s.bufByte i) ∧
    (s.busy = false → s.ctx.mode = .active → t.err = s.err ∧ t.ecause = s.ecause) ∧
    ∃ m e c, t = { s with ctx := { s.ctx with buf := m }, err := e, ecause := c }

/-- What COMMIT and the reserved codes leave unchanged: they store nothing, so every byte; COMMIT leaves the digest, the mode,
the parameters, the host's queue, the padding registers and the pipeline's stages, the owed accumulator and the STEP's
registers unless the block completes, and the error flags when it is performed; a reserved code changes the error flags only.
That ACC and BUF hold these values also while a completing COMMIT keeps BUSY = 1 is the reference controller's (R130), the
model's choice (log 6). -/
def Obligations.FrameOfInstructionsThatStoreNothing : Prop :=
  (∀ (n : Byte) (s t : State), exec (.commit n) s = .next t →
    (∀ i, t.bufByte i = s.bufByte i) ∧ t.settled.buf = s.settled.buf ∧ t.settled.dig = s.settled.dig ∧
    t.settled.mode = s.settled.mode ∧ t.ctx.acc = s.ctx.acc ∧
    (n.toNat + (offset s.ctx.len).toNat ≠ 64 → t.settled.acc = s.settled.acc ∧ t.ctl = s.ctl ∧ t.ret = s.ret ∧
      t.rnd = s.rnd ∧ t.work = s.work ∧ t.latched = s.latched) ∧
    (s.params.hasRawPort = true → s.ctx.mode = .active → n.toNat + (offset s.ctx.len).toNat ≤ 64 →
      t.err = s.err ∧ t.ecause = s.ecause) ∧
    t.stages = s.stages ∧ t.params = s.params ∧ t.inputs = s.inputs ∧ t.padlen = s.padlen ∧ t.padcnt = s.padcnt) ∧
  ∀ (i : Instr) (low : BitVec 12) (s t : State),
    i ∈ [Instr.reservedOp0 low, .reservedOp5 low, .reservedOp6 low, .reservedOp7 low, .reservedOp8 low,
      .reservedOp9 low, .reservedOpA low, .reservedOpB low, .reservedOpC low, .reservedOpD low, .reservedOpE low,
      .reservedOpF low] →
    exec i s = .next t → (∀ j, t.bufByte j = s.bufByte j) ∧ ∃ e c, t = { s with err := e, ecause := c }

/-- What FINISH leaves unchanged at the edge that accepts it: ACC, LEN, BUF, DIG and MODE as the ports and the engine see
them, the STEP's registers, the pipeline's stages, the error flags unless the core has finished, the parameters and the
host's queue. Of what it owes, LEN and every message byte of a block that also holds the length field are unchanged. The
values while BUSY = 1 are those of R158's reference controller, the model's choice (log 6), where R240 leaves them open. -/
def Obligations.FrameOfFinish : Prop :=
  ∀ s t : State, exec .finish s = .next t →
    t.ctx = s.ctx ∧ t.params = s.params ∧ t.inputs = s.inputs ∧ t.status.getLsbD 1 = s.status.getLsbD 1 ∧
    t.digest = s.digest ∧ (s.ctx.mode = .active → t.err = s.err ∧ t.ecause = s.ecause) ∧
    t.ret = s.ret ∧ t.rnd = s.rnd ∧ t.work = s.work ∧ t.latched = s.latched ∧ t.stages = s.stages ∧
    (s.busy = false → t.settled.len = s.ctx.len ∧
      ((offset s.ctx.len).toNat < 56 →
        ∀ i : BufIndex, i.toNat < (offset s.ctx.len).toNat → Memory.read t.settled.buf i = s.bufByte i))

/-- Which parameter set, and whatever CTL, RET, PADLEN, PADCNT, RND, W, the latched words and the stages held, makes no
architectural difference (R3, R8, R22): an instruction leaves the same owed registers, the same error flags and the same
BUSY. That ACC, LEN, BUF, DIG and MODE are then the same also while BUSY = 1 rests on the model's choice of the reference
controller's values (log 6). -/
def Obligations.ParametersChangeNoResult : Prop :=
  ∀ (i : Instr) (s t : State) (p : Params) (k : Ctl) (r : Ret) (pl pc : BitVec 7) (n : BitVec 6) (w : Quad)
    (m : Vector Word 16) (st : Vector Stage 64), p.hasRawPort = s.params.hasRawPort → exec i s = .next t →
    ∃ u, exec i { s with
        params := p, ctl := k, ret := r, padlen := pl, padcnt := pc
        rnd := n, work := w, latched := m, stages := st } = .next u ∧
      u.settled = t.settled ∧ u.ctx = t.ctx ∧ u.err = t.err ∧ u.ecause = t.ecause ∧ u.busy = t.busy

/-! ### FINISH -/

/-- R150, R155, R156: FINISH in FINISHED raises AFTER_FINISH and does nothing else. In ACTIVE it makes the core BUSY for
L_FINISH(OFFSET) cycles, counted down and with the registers owed at their end in the model's form (log 5), and owes: LEN as
it was; BUF the final block, with the marker at OFFSET, fill bytes and the 64-bit little-endian bit length; ACC after one STEP
on it, or, from OFFSET 56 on, after a STEP on the padded block and a second one; DIG that ACC; MODE FINISHED. -/
def Obligations.FinishPadsEncodesTheLengthAndEmits : Prop :=
  (∀ hasRaw, decode hasRaw (.command 0x4000#16) = .ok .finish) ∧
  (∀ s : State, s.busy = false → s.ctx.mode = .finished → exec .finish s = .next (s.raise .afterFinish)) ∧
  ∀ s : State, s.busy = false → s.ctx.mode = .active → s.ctx.buf.wf = true →
    ∃ t, exec .finish s = .next t ∧ t.busy = true ∧
      t.flight = some ⟨s.params.lFinish[(offset s.ctx.len).toFin] - 1, t.settled⟩ ∧
      t.settled.len = s.ctx.len ∧ t.settled.mode = .finished ∧ t.settled.dig = serialise t.settled.acc ∧
      (∀ i : BufIndex, Memory.read t.settled.buf i =
        (if 56 ≤ i.toNat then (s.ctx.len * 8#64).extractLsb' (8 * (i.toNat - 56)) 8
        else if 56 ≤ (offset s.ctx.len).toNat then 0x00#8
        else if i.toNat < (offset s.ctx.len).toNat then s.bufByte i
        else if i.toNat = (offset s.ctx.len).toNat then 0x80#8 else 0x00#8)) ∧
      ((offset s.ctx.len).toNat < 56 →
        t.settled.acc = compress s.ctx.acc (messageWords t.settled.buf)) ∧
      (56 ≤ (offset s.ctx.len).toNat → ∃ m : Memory, m.wf = true ∧
        (∀ i : BufIndex, Memory.read m i =
          (if i.toNat < (offset s.ctx.len).toNat then s.bufByte i
          else if i.toNat = (offset s.ctx.len).toNat then 0x80#8 else 0x00#8)) ∧
        t.settled.acc = compress (compress s.ctx.acc (messageWords m)) (messageWords t.settled.buf))

/-- R152: whatever the context, FINISH restores LEN to its value at FINISH, wrap-around included. -/
def Obligations.FinishRestoresTheLength : Prop := ∀ c : Context, c.finish.len = c.len

/-- R153: the bit length is `LEN[60:0]` above three zero bits, the eightfold length modulo 2^64. -/
def Obligations.BitLengthWrapsModulo64Bits : Prop :=
  ∀ len : Len, bitLength len = len.extractLsb' 0 61 ++ 0#3 ∧ (bitLength len).toNat = len.toNat * 8 % 2 ^ 64

/-- R159: a message of L bytes costs ceil((L + 9) / 64) STEPs from INIT to the end of FINISH. -/
def Obligations.StepCountOfAMessage : Prop :=
  ∀ bs : List Byte, Context.initial.stepsInPuts bs + (Context.initial.feed bs).stepsInFinish = (bs.length + 9 + 63) / 64

/-! ### The compression step -/

/-- R175: the round functions of R170 to R173 bit by bit. -/
def Obligations.RoundFunctionsBitByBit : Prop :=
  ∀ (x y z : Word) (n : Nat), n < 32 →
    (fF x y z).getLsbD n = (if x.getLsbD n then y.getLsbD n else z.getLsbD n) ∧
    (fG x y z).getLsbD n = (if z.getLsbD n then x.getLsbD n else y.getLsbD n) ∧
    (fH x y z).getLsbD n = xor (xor (x.getLsbD n) (y.getLsbD n)) (z.getLsbD n) ∧
    (fI x y z).getLsbD n = xor (y.getLsbD n) (x.getLsbD n || !z.getLsbD n)

/-- R174: bit k of a rotation by n is bit (k - n) mod 32, and every amount of the S ROM lies in 4..23. -/
def Obligations.RotatorMovesEveryBit : Prop :=
  (∀ (v : Word) (n k : Nat), 0 < n → n < 32 → k < 32 → (rotl32 v n).getLsbD k = v.getLsbD ((k + 32 - n) % 32)) ∧
  ∀ i, i < 64 → 4 ≤ sOf i ∧ sOf i ≤ 23

/-- R123: the message word of every round, and that each group of sixteen rounds reads every word exactly once. -/
def Obligations.ScheduleReadsEveryWordOncePerGroup : Prop :=
  (∀ i, i < 16 → (wordIndex i).val = i) ∧
  (∀ i, 16 ≤ i → i < 32 → (wordIndex i).val = (5 * i + 1) % 16) ∧
  (∀ i, 32 ≤ i → i < 48 → (wordIndex i).val = (3 * i + 5) % 16) ∧
  (∀ i, 48 ≤ i → i < 64 → (wordIndex i).val = 7 * i % 16) ∧
  ∀ grp, grp < 4 → ∀ j : Fin 16, ∃ r, r < 16 ∧ wordIndex (16 * grp + r) = j ∧
    ∀ r', r' < 16 → wordIndex (16 * grp + r') = j → r' = r

/-- R122, R124: one round, in each of the four groups. -/
def Obligations.RoundRotatesTheWorkingRegisters : Prop :=
  ∀ (i : Nat) (w : Quad) (m : Vector Word 16),
    (i < 16 → Machine.round i w m = ⟨w.d, w.b + rotl32 (w.a + fF w.b w.c w.d + kOf i + m[wordIndex i]) (sOf i), w.b, w.c⟩) ∧
    (16 ≤ i → i < 32 →
      Machine.round i w m = ⟨w.d, w.b + rotl32 (w.a + fG w.b w.c w.d + kOf i + m[wordIndex i]) (sOf i), w.b, w.c⟩) ∧
    (32 ≤ i → i < 48 →
      Machine.round i w m = ⟨w.d, w.b + rotl32 (w.a + fH w.b w.c w.d + kOf i + m[wordIndex i]) (sOf i), w.b, w.c⟩) ∧
    (48 ≤ i → i < 64 →
      Machine.round i w m = ⟨w.d, w.b + rotl32 (w.a + fI w.b w.c w.d + kOf i + m[wordIndex i]) (sOf i), w.b, w.c⟩)

/-- R52, R121: message word j is the little-endian value of BUF[4j..4j+3]. -/
def Obligations.MessageWordsAreLittleEndian : Prop :=
  ∀ (m : Memory) (j : Fin 16), ((messageWords m)[j]).toNat =
    (Memory.read m (BitVec.ofNat 6 (4 * j))).toNat + 2 ^ 8 * (Memory.read m (BitVec.ofNat 6 (4 * j + 1))).toNat +
    2 ^ 16 * (Memory.read m (BitVec.ofNat 6 (4 * j + 2))).toNat +
    2 ^ 24 * (Memory.read m (BitVec.ofNat 6 (4 * j + 3))).toNat

/-! ### The engine -/

/-- R130, R131: after a block-completing WRITE or COMMIT the reference controller is idle after exactly 64/k + 1 edges (65
for SEQ), with the registers the command owes. For the pipeline, of which R132 says only L_STEP >= 65, the least value is
the model's choice (log 11). -/
def Obligations.ControllerStepTakesItsReferenceCycles : Prop :=
  ∀ (i : Instr) (s t : State), s.busy = false → exec i s = .next t → t.busy = true → i ≠ .finish →
    (∀ k, k < referenceLStep s.params.engine → (t.controllerRun k).ctl ≠ .idle) ∧
    (t.controllerRun (referenceLStep s.params.engine)).ctl = .idle ∧
    (t.controllerRun (referenceLStep s.params.engine)).ctx = t.settled

/-- R158, R133: after FINISH at offset o the reference controller is idle after exactly padlen(o) + 2 + (64/k + 1) *
(1 + [o >= 56]) edges, with the registers FINISH owes. For the pipeline, of whose L_FINISH R245 says nothing, that count is
the model's choice (log 11). -/
def Obligations.ControllerFinishTakesItsReferenceCycles : Prop :=
  ∀ s t : State, s.busy = false → s.ctx.mode = .active → exec .finish s = .next t →
    (∀ k, k < referenceLFinish s.params.engine (offset s.ctx.len).toNat → (t.controllerRun k).ctl ≠ .idle) ∧
    (t.controllerRun (referenceLFinish s.params.engine (offset s.ctx.len).toNat)).ctl = .idle ∧
    (t.controllerRun (referenceLFinish s.params.engine (offset s.ctx.len).toNat)).ctx = t.settled

/-- R14, R133: every edge keeps the reference controller on course to exactly the registers that are owed. That a controller
which would be idle too early stays where it is, is the model's choice (log 6). -/
def Obligations.EveryEdgeKeepsTheControllerOnCourse : Prop :=
  ∀ s t : State, s.Inv → s.ControllerOnCourse → step s = .next t → t.ControllerOnCourse

/-- R34, R240, R246: with no reset, BUSY lasts exactly the cycles left; DONE and `digest` keep their values meanwhile; when
it falls ACC, LEN, BUF, DIG and MODE have their transaction-level values. With no raw write either, ERR and ECAUSE are as they
were, throughout and when BUSY falls. The cycles left are the model's form of BUSY's duration (log 5). -/
def Obligations.BusyEndsOnTimeWithTheOwedRegisters : Prop :=
  ∀ (s : State) (f : Flight), s.flight = some f → NoReset s.inputs →
    (∀ k, k ≤ f.left → ∃ t, Host.Core.run Sys2Proof.core k s = .next t ∧ t.busy = true ∧ t.settled = f.result ∧
      t.done = s.done ∧ t.digest = s.digest ∧
      (NoRawWrite s.inputs → t.err = s.err ∧ t.ecause = s.ecause)) ∧
    ∃ t, Host.Core.run Sys2Proof.core (f.left + 1) s = .next t ∧ t.busy = false ∧ t.ctx = f.result ∧
      (NoRawWrite s.inputs → t.err = s.err ∧ t.ecause = s.ecause)

/-- R240, R204: at an edge with BUSY = 1 and no reset, ERR and ECAUSE change only through a raw write on a core that has the
raw port, which records RAW_WHILE_BUSY unless an error is recorded already. -/
def Obligations.BusyEdgesChangeTheErrorFlagsOnlyByARawWrite : Prop :=
  ∀ (s t : State) (p : Pins) (rest : List HostAction), nextPins s.busy s.inputs = (p, rest) → s.busy = true →
    p.rst = false → step s = .next t →
    (p.raw = none ∨ s.params.hasRawPort = false ∨ s.err = true → t.err = s.err ∧ t.ecause = s.ecause) ∧
    (p.raw ≠ none → s.params.hasRawPort = true → s.err = false → t.err = true ∧ t.ecause = .rawWhileBusy)

/-- R132: after a block-completing WRITE or COMMIT on the pipeline, the block advances one stage per edge of the reference
controller: after k edges each of the stages 0 to k - 1 has received the working set after its round, with the block's
message words, and the later stages are as they were; when the block has left stage 63 it is accumulated. Which stage holds
which round's result, and what the stages without the block hold, are the model's choices (log 11). -/
def Obligations.PipelineAdvancesTheBlockOneStagePerEdge : Prop :=
  ∀ (i : Instr) (s t : State), s.busy = false → s.params.engine = .pipe64 → exec i s = .next t → t.busy = true →
    i ≠ .finish →
    (∀ k, k ≤ 64 → (t.controllerRun k).ctx = t.ctx ∧ ∀ j : Fin 64, (t.controllerRun k).stages[j] =
      if j.val < k then ⟨rounds (messageWords t.ctx.buf) (j.val + 1) 0 t.ctx.acc, messageWords t.ctx.buf⟩
      else s.stages[j]) ∧
    (t.controllerRun 65).ctx.acc = t.ctx.acc.add ((t.controllerRun 64).stages[63]).work

/-- R132: on the pipeline, with parameters that are legal, BUSY stays 1 for at least 65 cycles for each block the accepted
command sends through it, whatever the host drives but a reset. That a FINISH from OFFSET 56 on sends two, one after the
other, so that it takes at least 130, is read from R132 and R150 (log 11). -/
def Obligations.PipelineStaysBusyForEveryBlock : Prop :=
  ∀ (i : Instr) (s t : State), s.busy = false → s.params.engine = .pipe64 → s.params.Legal → exec i s = .next t →
    t.busy = true → NoReset s.inputs →
    ∀ k, k < 65 * (if i = .finish ∧ 56 ≤ (offset s.ctx.len).toNat then 2 else 1) →
      ∃ u, Host.Core.run Sys2Proof.core k t = .next u ∧ u.busy = true

/-! ### Invariants and whole-machine rules -/

/-- Every edge keeps the machine invariant: canonical buffers, DIG zero while ACTIVE (R28), CTL not IDLE exactly while BUSY
(R32), MODE ACTIVE while BUSY (R33), ECAUSE NONE exactly while ERR = 0 (R35). -/
def Obligations.EveryEdgeKeepsTheInvariant : Prop := ∀ s t : State, s.Inv → step s = .next t → t.Inv

/-- The invariant holds after reset, for every parameter set, and the controller is on course. -/
def Obligations.InvariantHoldsAfterReset : Prop :=
  ∀ (p : Params) (l : List HostAction), (State.afterReset p l).Inv ∧ (State.afterReset p l).ControllerOnCourse

/-- R33, R157: from FINISHED, only a reset edge or an accepted INIT changes MODE or DIG. -/
def Obligations.DigestIsFixedUntilInitOrReset : Prop :=
  ∀ (s t : State) (p : Pins) (rest : List HostAction), s.Inv → nextPins s.busy s.inputs = (p, rest) →
    step s = .next t → s.ctx.mode = .finished →
    (t.ctx.mode = .finished ∧ t.ctx.dig = s.ctx.dig ∧ t.digest = s.digest) ∨ p.rst = true ∨
      ∃ c, p.cmd = some c ∧ decode s.params.hasRawPort (.command c) = .ok .init

/-- R33: MODE becomes FINISHED only at the edge where a FINISH completes: BUSY was 1 and falls. -/
def Obligations.ModeIsSetOnlyWhenFinishCompletes : Prop :=
  ∀ s t : State, s.Inv → step s = .next t → s.ctx.mode = .active → t.ctx.mode = .finished →
    s.busy = true ∧ t.busy = false ∧ s.settled.mode = .finished

/-! ### The whole digest -/

/-- R1, R103, R150: feeding a message byte by byte from the empty context and finishing gives the digest of the whole
message: pad, split into blocks, chain from IV, serialise. -/
def Obligations.StreamingComputesTheMessageDigest : Prop :=
  ∀ msg : List Byte, (Context.initial.feed msg).finish.dig = md5 msg

/-- R83: from any idle state and with any latencies, the pseudo-instruction HASH ends with DONE = 1, BUSY = 0, ERR = 0 and
the message's digest on the port. -/
def Obligations.HashPutsTheMessageDigestOnThePort : Prop :=
  ∀ (s : State) (msg : List Byte) (rest : List HostAction), s.busy = false →
    s.inputs = (AsmLine.hash msg).expand ++ rest →
    ∃ n t, Host.Core.run Sys2Proof.core n s = .next t ∧ t.digestValid = true ∧ t.digest = digestBits (md5 msg) ∧
      t.inputs = .wait :: rest
end

