-- ==== Sys2Proof/Laws/State.lean ====
section
/-! SUPPORT. One lemma per field per update of State and Context, so that no later proof unfolds a record update. -/

namespace Sys2Proof.Machine

/-! ### Raising an error (R12) -/

@[simp] theorem State.raise_params (s : State) (c : Cause) : (s.raise c).params = s.params := by unfold State.raise; split <;> rfl
@[simp] theorem State.raise_ctx (s : State) (c : Cause) : (s.raise c).ctx = s.ctx := by unfold State.raise; split <;> rfl
@[simp] theorem State.raise_flight (s : State) (c : Cause) : (s.raise c).flight = s.flight := by unfold State.raise; split <;> rfl
@[simp] theorem State.raise_ctl (s : State) (c : Cause) : (s.raise c).ctl = s.ctl := by unfold State.raise; split <;> rfl
@[simp] theorem State.raise_ret (s : State) (c : Cause) : (s.raise c).ret = s.ret := by unfold State.raise; split <;> rfl
@[simp] theorem State.raise_padlen (s : State) (c : Cause) : (s.raise c).padlen = s.padlen := by unfold State.raise; split <;> rfl
@[simp] theorem State.raise_padcnt (s : State) (c : Cause) : (s.raise c).padcnt = s.padcnt := by unfold State.raise; split <;> rfl
@[simp] theorem State.raise_rnd (s : State) (c : Cause) : (s.raise c).rnd = s.rnd := by unfold State.raise; split <;> rfl
@[simp] theorem State.raise_work (s : State) (c : Cause) : (s.raise c).work = s.work := by unfold State.raise; split <;> rfl
@[simp] theorem State.raise_latched (s : State) (c : Cause) : (s.raise c).latched = s.latched := by unfold State.raise; split <;> rfl
@[simp] theorem State.raise_stages (s : State) (c : Cause) : (s.raise c).stages = s.stages := by unfold State.raise; split <;> rfl
@[simp] theorem State.raise_inputs (s : State) (c : Cause) : (s.raise c).inputs = s.inputs := by unfold State.raise; split <;> rfl

@[simp] theorem State.raise_err (s : State) (c : Cause) : (s.raise c).err = true := by
  unfold State.raise; split <;> simp_all
theorem State.raise_ecause (s : State) (c : Cause) : (s.raise c).ecause = if s.err then s.ecause else c := by
  unfold State.raise; split <;> rfl
@[simp] theorem State.raise_busy (s : State) (c : Cause) : (s.raise c).busy = s.busy := by simp [State.busy]
@[simp] theorem State.raise_settled (s : State) (c : Cause) : (s.raise c).settled = s.settled := by
  simp [State.settled]

/-! ### Starting a STEP, launching, the end of BUSY -/

@[simp] theorem State.startStep_params (s : State) (r : Ret) : (s.startStep r).params = s.params := by cases s; rfl
@[simp] theorem State.startStep_ctx (s : State) (r : Ret) : (s.startStep r).ctx = s.ctx := by cases s; rfl
@[simp] theorem State.startStep_err (s : State) (r : Ret) : (s.startStep r).err = s.err := by cases s; rfl
@[simp] theorem State.startStep_ecause (s : State) (r : Ret) : (s.startStep r).ecause = s.ecause := by cases s; rfl
@[simp] theorem State.startStep_flight (s : State) (r : Ret) : (s.startStep r).flight = s.flight := by cases s; rfl
@[simp] theorem State.startStep_ctl (s : State) (r : Ret) : (s.startStep r).ctl = .round := by cases s; rfl
@[simp] theorem State.startStep_ret (s : State) (r : Ret) : (s.startStep r).ret = r := by cases s; rfl
@[simp] theorem State.startStep_padlen (s : State) (r : Ret) : (s.startStep r).padlen = s.padlen := by cases s; rfl
@[simp] theorem State.startStep_padcnt (s : State) (r : Ret) : (s.startStep r).padcnt = s.padcnt := by cases s; rfl
@[simp] theorem State.startStep_rnd (s : State) (r : Ret) : (s.startStep r).rnd = 0#6 := by cases s; rfl
@[simp] theorem State.startStep_work (s : State) (r : Ret) : (s.startStep r).work = s.ctx.acc := by cases s; rfl
@[simp] theorem State.startStep_latched (s : State) (r : Ret) : (s.startStep r).latched = messageWords s.ctx.buf := by cases s; rfl
@[simp] theorem State.startStep_stages (s : State) (r : Ret) : (s.startStep r).stages = s.stages := by cases s; rfl
@[simp] theorem State.startStep_inputs (s : State) (r : Ret) : (s.startStep r).inputs = s.inputs := by cases s; rfl

@[simp] theorem State.launch_params (s : State) (n : Nat) (c : Context) : (s.launch n c).params = s.params := by cases s; rfl
@[simp] theorem State.launch_ctx (s : State) (n : Nat) (c : Context) : (s.launch n c).ctx = s.ctx := by cases s; rfl
@[simp] theorem State.launch_err (s : State) (n : Nat) (c : Context) : (s.launch n c).err = s.err := by cases s; rfl
@[simp] theorem State.launch_ecause (s : State) (n : Nat) (c : Context) : (s.launch n c).ecause = s.ecause := by cases s; rfl
@[simp] theorem State.launch_flight (s : State) (n : Nat) (c : Context) : (s.launch n c).flight = some ⟨n - 1, c⟩ := by cases s; rfl
@[simp] theorem State.launch_ctl (s : State) (n : Nat) (c : Context) : (s.launch n c).ctl = s.ctl := by cases s; rfl
@[simp] theorem State.launch_ret (s : State) (n : Nat) (c : Context) : (s.launch n c).ret = s.ret := by cases s; rfl
@[simp] theorem State.launch_padlen (s : State) (n : Nat) (c : Context) : (s.launch n c).padlen = s.padlen := by cases s; rfl
@[simp] theorem State.launch_padcnt (s : State) (n : Nat) (c : Context) : (s.launch n c).padcnt = s.padcnt := by cases s; rfl
@[simp] theorem State.launch_rnd (s : State) (n : Nat) (c : Context) : (s.launch n c).rnd = s.rnd := by cases s; rfl
@[simp] theorem State.launch_work (s : State) (n : Nat) (c : Context) : (s.launch n c).work = s.work := by cases s; rfl
@[simp] theorem State.launch_latched (s : State) (n : Nat) (c : Context) : (s.launch n c).latched = s.latched := by cases s; rfl
@[simp] theorem State.launch_stages (s : State) (n : Nat) (c : Context) : (s.launch n c).stages = s.stages := by cases s; rfl
@[simp] theorem State.launch_inputs (s : State) (n : Nat) (c : Context) : (s.launch n c).inputs = s.inputs := by cases s; rfl

@[simp] theorem State.launch_busy (s : State) (n : Nat) (c : Context) : (s.launch n c).busy = true := by cases s; rfl
@[simp] theorem State.launch_settled (s : State) (n : Nat) (c : Context) : (s.launch n c).settled = c := by cases s; rfl

/-! ### The host queue and reset -/

@[simp] theorem State.afterPins_params (s : State) (p : Pins) (r : List HostAction) : (s.afterPins p r).params = s.params := by cases s; rfl
@[simp] theorem State.afterPins_ctx (s : State) (p : Pins) (r : List HostAction) : (s.afterPins p r).ctx = s.ctx := by cases s; rfl
@[simp] theorem State.afterPins_err (s : State) (p : Pins) (r : List HostAction) : (s.afterPins p r).err = s.err := by cases s; rfl
@[simp] theorem State.afterPins_ecause (s : State) (p : Pins) (r : List HostAction) : (s.afterPins p r).ecause = s.ecause := by cases s; rfl
@[simp] theorem State.afterPins_flight (s : State) (p : Pins) (r : List HostAction) : (s.afterPins p r).flight = s.flight := by cases s; rfl
@[simp] theorem State.afterPins_ctl (s : State) (p : Pins) (r : List HostAction) : (s.afterPins p r).ctl = s.ctl := by cases s; rfl
@[simp] theorem State.afterPins_ret (s : State) (p : Pins) (r : List HostAction) : (s.afterPins p r).ret = s.ret := by cases s; rfl
@[simp] theorem State.afterPins_padlen (s : State) (p : Pins) (r : List HostAction) : (s.afterPins p r).padlen = s.padlen := by cases s; rfl
@[simp] theorem State.afterPins_padcnt (s : State) (p : Pins) (r : List HostAction) : (s.afterPins p r).padcnt = s.padcnt := by cases s; rfl
@[simp] theorem State.afterPins_rnd (s : State) (p : Pins) (r : List HostAction) : (s.afterPins p r).rnd = s.rnd := by cases s; rfl
@[simp] theorem State.afterPins_work (s : State) (p : Pins) (r : List HostAction) : (s.afterPins p r).work = s.work := by cases s; rfl
@[simp] theorem State.afterPins_latched (s : State) (p : Pins) (r : List HostAction) : (s.afterPins p r).latched = s.latched := by cases s; rfl
@[simp] theorem State.afterPins_stages (s : State) (p : Pins) (r : List HostAction) : (s.afterPins p r).stages = s.stages := by cases s; rfl
@[simp] theorem State.afterPins_inputs (s : State) (p : Pins) (r : List HostAction) : (s.afterPins p r).inputs = p.heldOver (s.cmdReady p.rst) ++ r := by cases s; rfl

@[simp] theorem State.afterPins_busy (s : State) (p : Pins) (r : List HostAction) : (s.afterPins p r).busy = s.busy := by cases s; rfl
@[simp] theorem State.afterPins_settled (s : State) (p : Pins) (r : List HostAction) :
    (s.afterPins p r).settled = s.settled := rfl

@[simp] theorem State.afterReset_params (p : Params) (l : List HostAction) : (State.afterReset p l).params = p := rfl
@[simp] theorem State.afterReset_ctx (p : Params) (l : List HostAction) : (State.afterReset p l).ctx = Context.initial := rfl
@[simp] theorem State.afterReset_err (p : Params) (l : List HostAction) : (State.afterReset p l).err = false := rfl
@[simp] theorem State.afterReset_ecause (p : Params) (l : List HostAction) : (State.afterReset p l).ecause = .none := rfl
@[simp] theorem State.afterReset_flight (p : Params) (l : List HostAction) : (State.afterReset p l).flight = none := rfl
@[simp] theorem State.afterReset_ctl (p : Params) (l : List HostAction) : (State.afterReset p l).ctl = .idle := rfl
@[simp] theorem State.afterReset_ret (p : Params) (l : List HostAction) : (State.afterReset p l).ret = .idle := rfl
@[simp] theorem State.afterReset_padlen (p : Params) (l : List HostAction) : (State.afterReset p l).padlen = 0#7 := rfl
@[simp] theorem State.afterReset_padcnt (p : Params) (l : List HostAction) : (State.afterReset p l).padcnt = 0#7 := rfl
@[simp] theorem State.afterReset_rnd (p : Params) (l : List HostAction) : (State.afterReset p l).rnd = 0#6 := rfl
@[simp] theorem State.afterReset_inputs (p : Params) (l : List HostAction) : (State.afterReset p l).inputs = l := rfl

@[simp] theorem State.afterReset_busy (p : Params) (l : List HostAction) : (State.afterReset p l).busy = false := rfl
@[simp] theorem State.afterReset_settled (p : Params) (l : List HostAction) :
    (State.afterReset p l).settled = Context.initial := rfl
@[simp] theorem State.resetEdge_eq (s : State) : s.resetEdge = State.afterReset s.params s.inputs := by cases s; rfl

/-! ### The controller: what each edge leaves unchanged -/

@[simp] theorem State.putRound_params (s : State) (r : Stage) : (s.putRound r).params = s.params := by unfold State.putRound; split <;> rfl
@[simp] theorem State.putRound_ctx (s : State) (r : Stage) : (s.putRound r).ctx = s.ctx := by unfold State.putRound; split <;> rfl
@[simp] theorem State.putRound_err (s : State) (r : Stage) : (s.putRound r).err = s.err := by unfold State.putRound; split <;> rfl
@[simp] theorem State.putRound_ecause (s : State) (r : Stage) : (s.putRound r).ecause = s.ecause := by unfold State.putRound; split <;> rfl
@[simp] theorem State.putRound_flight (s : State) (r : Stage) : (s.putRound r).flight = s.flight := by unfold State.putRound; split <;> rfl
@[simp] theorem State.putRound_ctl (s : State) (r : Stage) : (s.putRound r).ctl = s.ctl := by unfold State.putRound; split <;> rfl
@[simp] theorem State.putRound_ret (s : State) (r : Stage) : (s.putRound r).ret = s.ret := by unfold State.putRound; split <;> rfl
@[simp] theorem State.putRound_padlen (s : State) (r : Stage) : (s.putRound r).padlen = s.padlen := by unfold State.putRound; split <;> rfl
@[simp] theorem State.putRound_padcnt (s : State) (r : Stage) : (s.putRound r).padcnt = s.padcnt := by unfold State.putRound; split <;> rfl
@[simp] theorem State.putRound_rnd (s : State) (r : Stage) : (s.putRound r).rnd = s.rnd := by unfold State.putRound; split <;> rfl
@[simp] theorem State.putRound_latched (s : State) (r : Stage) : (s.putRound r).latched = s.latched := by unfold State.putRound; split <;> rfl
@[simp] theorem State.putRound_inputs (s : State) (r : Stage) : (s.putRound r).inputs = s.inputs := by unfold State.putRound; split <;> rfl
theorem State.putRound_work (s : State) (r : Stage) :
    (s.putRound r).work = if pipelined s.params.engine then s.work else r.work := by unfold State.putRound; split <;> rfl
theorem State.putRound_stages (s : State) (r : Stage) : (s.putRound r).stages =
    if pipelined s.params.engine then s.stages.set s.rnd.toNat r s.rnd.isLt else s.stages := by
  unfold State.putRound; split <;> rfl

@[simp] theorem State.controllerEdge_params (s : State) : s.controllerEdge.params = s.params := by
  unfold State.controllerEdge State.roundEdge State.putRound State.accumEdge State.padEdge State.lenwEdge State.outEdge State.startStep
  cases s.ctl <;> simp only <;> (repeat' split) <;> rfl
@[simp] theorem State.controllerEdge_err (s : State) : s.controllerEdge.err = s.err := by
  unfold State.controllerEdge State.roundEdge State.putRound State.accumEdge State.padEdge State.lenwEdge State.outEdge State.startStep
  cases s.ctl <;> simp only <;> (repeat' split) <;> rfl
@[simp] theorem State.controllerEdge_ecause (s : State) : s.controllerEdge.ecause = s.ecause := by
  unfold State.controllerEdge State.roundEdge State.putRound State.accumEdge State.padEdge State.lenwEdge State.outEdge State.startStep
  cases s.ctl <;> simp only <;> (repeat' split) <;> rfl
@[simp] theorem State.controllerEdge_flight (s : State) : s.controllerEdge.flight = s.flight := by
  unfold State.controllerEdge State.roundEdge State.putRound State.accumEdge State.padEdge State.lenwEdge State.outEdge State.startStep
  cases s.ctl <;> simp only <;> (repeat' split) <;> rfl
@[simp] theorem State.controllerEdge_inputs (s : State) : s.controllerEdge.inputs = s.inputs := by
  unfold State.controllerEdge State.roundEdge State.putRound State.accumEdge State.padEdge State.lenwEdge State.outEdge State.startStep
  cases s.ctl <;> simp only <;> (repeat' split) <;> rfl

theorem State.busy_eq_true {s : State} : s.busy = true ↔ ∃ f, s.flight = some f := Option.isSome_iff_exists
theorem State.busy_eq_false {s : State} : s.busy = false ↔ s.flight = none := by simp [State.busy]
theorem State.settled_of_idle {s : State} (h : s.flight = none) : s.settled = s.ctx := by simp [State.settled, h]
theorem State.settled_of_flight {s : State} {f : Flight} (h : s.flight = some f) : s.settled = f.result := by
  simp [State.settled, h]

/-! ### Contexts -/

@[simp] theorem Context.append_acc (c : Context) (b : Byte) : (c.append b).acc = c.acc := by cases c; rfl
@[simp] theorem Context.append_len (c : Context) (b : Byte) : (c.append b).len = c.len + 1#64 := by cases c; rfl
@[simp] theorem Context.append_buf (c : Context) (b : Byte) : (c.append b).buf = Memory.write c.buf (offset c.len) b := by cases c; rfl
@[simp] theorem Context.append_dig (c : Context) (b : Byte) : (c.append b).dig = c.dig := by cases c; rfl
@[simp] theorem Context.append_mode (c : Context) (b : Byte) : (c.append b).mode = c.mode := by cases c; rfl

@[simp] theorem Context.count_acc (c : Context) (n : Byte) : (c.count n).acc = c.acc := by cases c; rfl
@[simp] theorem Context.count_len (c : Context) (n : Byte) : (c.count n).len = c.len + n.setWidth 64 := by cases c; rfl
@[simp] theorem Context.count_buf (c : Context) (n : Byte) : (c.count n).buf = c.buf := by cases c; rfl
@[simp] theorem Context.count_dig (c : Context) (n : Byte) : (c.count n).dig = c.dig := by cases c; rfl
@[simp] theorem Context.count_mode (c : Context) (n : Byte) : (c.count n).mode = c.mode := by cases c; rfl

@[simp] theorem Context.step_acc (c : Context) : (c.step).acc = compress c.acc (messageWords c.buf) := by cases c; rfl
@[simp] theorem Context.step_len (c : Context) : (c.step).len = c.len := by cases c; rfl
@[simp] theorem Context.step_buf (c : Context) : (c.step).buf = c.buf := by cases c; rfl
@[simp] theorem Context.step_dig (c : Context) : (c.step).dig = c.dig := by cases c; rfl
@[simp] theorem Context.step_mode (c : Context) : (c.step).mode = c.mode := by cases c; rfl

@[simp] theorem Context.writeLength_acc (c : Context) (p : BitVec 7) : (c.writeLength p).acc = c.acc := by cases c; rfl
@[simp] theorem Context.writeLength_len (c : Context) (p : BitVec 7) : (c.writeLength p).len = c.len - p.setWidth 64 := by cases c; rfl
@[simp] theorem Context.writeLength_buf (c : Context) (p : BitVec 7) : (c.writeLength p).buf = writeLengthField c.buf (bitLength (c.len - p.setWidth 64)) := by cases c; rfl
@[simp] theorem Context.writeLength_dig (c : Context) (p : BitVec 7) : (c.writeLength p).dig = c.dig := by cases c; rfl
@[simp] theorem Context.writeLength_mode (c : Context) (p : BitVec 7) : (c.writeLength p).mode = c.mode := by cases c; rfl

@[simp] theorem Context.emit_acc (c : Context) : (c.emit).acc = c.acc := by cases c; rfl
@[simp] theorem Context.emit_len (c : Context) : (c.emit).len = c.len := by cases c; rfl
@[simp] theorem Context.emit_buf (c : Context) : (c.emit).buf = c.buf := by cases c; rfl
@[simp] theorem Context.emit_dig (c : Context) : (c.emit).dig = serialise c.acc := by cases c; rfl
@[simp] theorem Context.emit_mode (c : Context) : (c.emit).mode = .finished := by cases c; rfl

theorem Context.put_len (c : Context) (b : Byte) : (c.put b).len = c.len + 1#64 := by
  unfold Context.put; split <;> simp
theorem Context.put_buf (c : Context) (b : Byte) : (c.put b).buf = Memory.write c.buf (offset c.len) b := by
  unfold Context.put; split <;> simp
theorem Context.put_dig (c : Context) (b : Byte) : (c.put b).dig = c.dig := by unfold Context.put; split <;> simp
theorem Context.put_mode (c : Context) (b : Byte) : (c.put b).mode = c.mode := by unfold Context.put; split <;> simp
theorem Context.commit_len (c : Context) (n : Byte) : (c.commit n).len = c.len + n.setWidth 64 := by
  unfold Context.commit; split <;> simp
theorem Context.commit_buf (c : Context) (n : Byte) : (c.commit n).buf = c.buf := by
  unfold Context.commit; split <;> simp
theorem Context.commit_dig (c : Context) (n : Byte) : (c.commit n).dig = c.dig := by
  unfold Context.commit; split <;> simp
theorem Context.commit_mode (c : Context) (n : Byte) : (c.commit n).mode = c.mode := by
  unfold Context.commit; split <;> simp

end Sys2Proof.Machine
end

