-- ==== Sys2Proof/Laws/Exec.lean ====
section
/-! SUPPORT. What an instruction can do: one equation per case of a meaning, and one lemma that lists every case. -/

namespace Sys2Proof.Machine

@[simp] theorem andThen_next (s : State) (k : State → Host.Outcome State Fault Refusal) :
    andThen (.next s) k = k s := rfl

theorem whenReady_busy {s : State} (h : s.busy = true) (o : Host.Outcome State Fault Refusal) :
    whenReady s o = .next s := by simp [whenReady, h]

theorem whenReady_idle {s : State} (h : s.busy = false) (o : Host.Outcome State Fault Refusal) :
    whenReady s o = o := by simp [whenReady, h]

/-- The state of a new context (R100). -/
def State.initialised (s : State) : State := { s with ctx := Context.initial, err := false, ecause := .none }

/-- The state after a performed raw write (R104). -/
def State.rawWritten (s : State) (a : BufIndex) (d : Byte) : State :=
  { s with ctx := { s.ctx with buf := Memory.write s.ctx.buf a d } }

/-- The state after an accepted WRITE (R102). -/
def State.written (s : State) (b : Byte) : State := s.absorb (byteFills s.ctx.len) (s.ctx.append b) (s.ctx.put b)

/-- The state after an accepted COMMIT (R106). -/
def State.committed (s : State) (n : Byte) : State :=
  s.absorb (commitFills n s.ctx.len) (s.ctx.count n) (s.ctx.commit n)

/-- Every case of a meaning's next state. -/
inductive ExecCase (s : State) : Instr → State → Prop where
  | same (i) : ExecCase s i s
  | error (i) (c : Cause) (hc : c ≠ .none) : ExecCase s i (s.raise c)
  | init (hb : s.busy = false) : ExecCase s .init s.initialised
  | write (b) (hb : s.busy = false) (hm : s.ctx.mode = .active) : ExecCase s (.write b) (s.written b)
  | commit (n) (hb : s.busy = false) (hr : s.params.hasRawPort = true) (hm : s.ctx.mode = .active)
      (ho : commitOverflows n s.ctx.len = false) : ExecCase s (.commit n) (s.committed n)
  | finish (hb : s.busy = false) (hm : s.ctx.mode = .active) : ExecCase s .finish s.startFinish
  | rawWrite (a d) (hb : s.busy = false) (hr : s.params.hasRawPort = true) (hm : s.ctx.mode = .active) :
      ExecCase s (.rawWrite a d) (s.rawWritten a d)

theorem mode_active {m : Mode} (h : m ≠ .finished) : m = .active := by cases m <;> simp_all

theorem illegalOpcode_case (s : State) (i : Instr) : ∃ t, illegalOpcode s = .next t ∧ ExecCase s i t := by
  by_cases hb : s.busy = true
  · exact ⟨s, whenReady_busy hb _, .same i⟩
  · exact ⟨_, whenReady_idle (by simpa using hb) _, .error i .illegalOp (by decide)⟩

theorem execInit_case (s : State) : ∃ t, execInit s = .next t ∧ ExecCase s .init t := by
  by_cases hb : s.busy = true
  · exact ⟨s, whenReady_busy hb _, .same _⟩
  · exact ⟨_, whenReady_idle (by simpa using hb) _, .init (by simpa using hb)⟩

theorem execWrite_case (b : Byte) (s : State) : ∃ t, execWrite b s = .next t ∧ ExecCase s (.write b) t := by
  by_cases hb : s.busy = true
  · exact ⟨s, whenReady_busy hb _, .same _⟩
  · have hb : s.busy = false := by simpa using hb
    unfold execWrite
    rw [whenReady_idle hb]
    split
    · exact ⟨_, rfl, .error _ .afterFinish (by decide)⟩
    next hm => exact ⟨_, rfl, .write b hb (mode_active hm)⟩

theorem execCommit_case (n : Byte) (s : State) : ∃ t, execCommit n s = .next t ∧ ExecCase s (.commit n) t := by
  by_cases hb : s.busy = true
  · exact ⟨s, whenReady_busy hb _, .same _⟩
  · have hb : s.busy = false := by simpa using hb
    unfold execCommit
    rw [whenReady_idle hb]
    split
    · exact ⟨_, rfl, .error _ .illegalOp (by decide)⟩
    · split
      · exact ⟨_, rfl, .error _ .afterFinish (by decide)⟩
      · split
        · exact ⟨_, rfl, .error _ .commitOverflow (by decide)⟩
        next hr hm ho => exact ⟨_, rfl, .commit n hb (by simpa using hr) (mode_active hm) (by simpa using ho)⟩

theorem execFinish_case (s : State) : ∃ t, execFinish s = .next t ∧ ExecCase s .finish t := by
  by_cases hb : s.busy = true
  · exact ⟨s, whenReady_busy hb _, .same _⟩
  · have hb : s.busy = false := by simpa using hb
    unfold execFinish
    rw [whenReady_idle hb]
    split
    · exact ⟨_, rfl, .error _ .afterFinish (by decide)⟩
    next hm => exact ⟨_, rfl, .finish hb (mode_active hm)⟩

theorem execRawWrite_case (a : BufIndex) (d : Byte) (s : State) :
    ∃ t, execRawWrite a d s = .next t ∧ ExecCase s (.rawWrite a d) t := by
  unfold execRawWrite
  split
  · exact ⟨s, rfl, .same _⟩
  · split
    · exact ⟨_, rfl, .error _ .rawWhileBusy (by decide)⟩
    · split
      · exact ⟨_, rfl, .error _ .rawAfterFinish (by decide)⟩
      next hr hb hm => exact ⟨_, rfl, .rawWrite a d (by simpa using hb) (by simpa using hr) (mode_active hm)⟩

/-- Every instruction answers a next state, and it is one of the cases. -/
theorem exec_case (i : Instr) (s : State) : ∃ t, exec i s = .next t ∧ ExecCase s i t := by
  cases i with
  | init => exact execInit_case s
  | write b => exact execWrite_case b s
  | commit n => exact execCommit_case n s
  | finish => exact execFinish_case s
  | rawWrite a d => exact execRawWrite_case a d s
  | reservedOp0 low => exact illegalOpcode_case s _
  | reservedOp5 low => exact illegalOpcode_case s _
  | reservedOp6 low => exact illegalOpcode_case s _
  | reservedOp7 low => exact illegalOpcode_case s _
  | reservedOp8 low => exact illegalOpcode_case s _
  | reservedOp9 low => exact illegalOpcode_case s _
  | reservedOpA low => exact illegalOpcode_case s _
  | reservedOpB low => exact illegalOpcode_case s _
  | reservedOpC low => exact illegalOpcode_case s _
  | reservedOpD low => exact illegalOpcode_case s _
  | reservedOpE low => exact illegalOpcode_case s _
  | reservedOpF low => exact illegalOpcode_case s _

/-- Inversion: the next state of an instruction is one of the cases. -/
theorem exec_inv {i : Instr} {s t : State} (h : exec i s = .next t) : ExecCase s i t := by
  obtain ⟨t', h', hc⟩ := exec_case i s
  rw [h] at h'
  cases h'
  exact hc

/-- What a port's word does: an instruction's case, a raised error, or nothing. -/
theorem perform_case (w : Option PortWord) (s : State) :
    ∃ t, perform w s = .next t ∧ ((∃ i, ExecCase s i t) ∨ t = s ∨ ∃ c, c ≠ .none ∧ t = s.raise c) := by
  cases w with
  | none => exact ⟨s, rfl, .inr (.inl rfl)⟩
  | some pw =>
    simp only [perform]
    cases decode s.params.hasRawPort pw with
    | ok i => obtain ⟨t, h, hc⟩ := exec_case i s; exact ⟨t, h, .inl ⟨i, hc⟩⟩
    | error r =>
      refine ⟨_, rfl, ?_⟩
      cases r with
      | illegalOp => exact .inr (.inr ⟨.illegalOp, by decide, rfl⟩)
      | reservedBits => exact .inr (.inr ⟨.reservedBits, by decide, rfl⟩)
      | noRawPort => exact .inr (.inl rfl)

/-! ### One equation per case -/

theorem exec_init {s : State} (hb : s.busy = false) : exec .init s = .next s.initialised := whenReady_idle hb _

theorem exec_write {s : State} (hb : s.busy = false) (hm : s.ctx.mode = .active) (b : Byte) :
    exec (.write b) s = .next (s.written b) := by
  show execWrite b s = _
  rw [execWrite, whenReady_idle hb, if_neg (by rw [hm]; decide), State.written]

theorem exec_write_finished {s : State} (hb : s.busy = false) (hm : s.ctx.mode = .finished) (b : Byte) :
    exec (.write b) s = .next (s.raise .afterFinish) := by
  show execWrite b s = _
  rw [execWrite, whenReady_idle hb, if_pos hm]

theorem exec_commit {s : State} (hb : s.busy = false) (hr : s.params.hasRawPort = true) (hm : s.ctx.mode = .active)
    {n : Byte} (ho : commitOverflows n s.ctx.len = false) : exec (.commit n) s = .next (s.committed n) := by
  show execCommit n s = _
  rw [execCommit, whenReady_idle hb, if_neg (by simp [hr]), if_neg (by rw [hm]; decide), if_neg (by simp [ho]),
    State.committed]

theorem exec_finish {s : State} (hb : s.busy = false) (hm : s.ctx.mode = .active) :
    exec .finish s = .next s.startFinish := by
  show execFinish s = _
  rw [execFinish, whenReady_idle hb, if_neg (by rw [hm]; decide)]

theorem exec_rawWrite {s : State} (hb : s.busy = false) (hr : s.params.hasRawPort = true) (hm : s.ctx.mode = .active)
    (a : BufIndex) (d : Byte) : exec (.rawWrite a d) s = .next (s.rawWritten a d) := by
  show execRawWrite a d s = _
  rw [execRawWrite, if_neg (by simp [hr]), if_neg (by simp [hb]), if_neg (by rw [hm]; decide), State.rawWritten]

/-! ### Fields of the next states -/

theorem State.absorb_idle (s : State) (a r : Context) : s.absorb false a r = { s with ctx := r } := rfl

theorem State.absorb_full (s : State) (a r : Context) :
    s.absorb true a r = ({ s with ctx := a }.startStep .idle).launch s.params.lStep r := rfl

@[simp] theorem State.absorb_busy (s : State) (f : Bool) (a r : Context) :
    (s.absorb f a r).busy = (f || s.busy) := by
  cases f
  · simp [State.absorb_idle, State.busy]
  · simp [State.absorb_full]

@[simp] theorem State.absorb_params (s : State) (f : Bool) (a r : Context) : (s.absorb f a r).params = s.params := by
  cases f <;> simp [State.absorb_idle, State.absorb_full]

@[simp] theorem State.absorb_err (s : State) (f : Bool) (a r : Context) : (s.absorb f a r).err = s.err := by
  cases f <;> simp [State.absorb_idle, State.absorb_full]

@[simp] theorem State.absorb_ecause (s : State) (f : Bool) (a r : Context) : (s.absorb f a r).ecause = s.ecause := by
  cases f <;> simp [State.absorb_idle, State.absorb_full]

@[simp] theorem State.absorb_inputs (s : State) (f : Bool) (a r : Context) : (s.absorb f a r).inputs = s.inputs := by
  cases f <;> simp [State.absorb_idle, State.absorb_full]

@[simp] theorem State.absorb_stages (s : State) (f : Bool) (a r : Context) : (s.absorb f a r).stages = s.stages := by
  cases f <;> simp [State.absorb_idle, State.absorb_full]

/-- What an idle core owes or holds after an accepted WRITE or COMMIT is the command's whole effect. -/
theorem State.absorb_settled {s : State} (h : s.busy = false) (f : Bool) (a r : Context) :
    (s.absorb f a r).settled = r := by
  cases f
  · simp [State.absorb_idle, State.settled, State.busy_eq_false.mp h]
  · simp [State.absorb_full]

@[simp] theorem State.startFinish_busy (s : State) : s.startFinish.busy = true := rfl
@[simp] theorem State.startFinish_settled (s : State) : s.startFinish.settled = s.ctx.finish := rfl
@[simp] theorem State.startFinish_params (s : State) : s.startFinish.params = s.params := by cases s; rfl
@[simp] theorem State.startFinish_ctx (s : State) : s.startFinish.ctx = s.ctx := by cases s; rfl
@[simp] theorem State.startFinish_err (s : State) : s.startFinish.err = s.err := by cases s; rfl
@[simp] theorem State.startFinish_ecause (s : State) : s.startFinish.ecause = s.ecause := by cases s; rfl
@[simp] theorem State.startFinish_inputs (s : State) : s.startFinish.inputs = s.inputs := by cases s; rfl
@[simp] theorem State.startFinish_stages (s : State) : s.startFinish.stages = s.stages := by cases s; rfl
@[simp] theorem State.startFinish_ctl (s : State) : s.startFinish.ctl = .pad := by cases s; rfl

end Sys2Proof.Machine
end

