-- ==== Sys2Proof/Laws/Memory.lean ====
section
/-! SUPPORT. The laws of the block buffer: read after write, other indexes unchanged, the canonical form kept, and equal
contents of canonical buffers are equal lists. -/

namespace Sys2Proof.Machine

@[simp] theorem Memory.read_nil (i : BufIndex) : Memory.read [] i = 0x00#8 := rfl

theorem Memory.read_cons (k : Nat) (v : Byte) (rest : Memory) (i : BufIndex) :
    Memory.read ((k, v) :: rest) i = if k = i.toNat then v else Memory.read rest i := rfl

theorem Memory.read_place_ne (v : Byte) (rest : Memory) {i j : BufIndex} (h : j ≠ i) :
    Memory.read (Memory.place i v rest) j = Memory.read rest j := by
  have hne : i.toNat ≠ j.toNat := fun e => h (BitVec.eq_of_toNat_eq e.symm)
  unfold Memory.place
  split
  · rfl
  · simp [Memory.read_cons, hne]

/-- A write changes no other index. -/
theorem Memory.read_write_ne (m : Memory) (v : Byte) {i j : BufIndex} (h : j ≠ i) :
    Memory.read (Memory.write m i v) j = Memory.read m j := by
  have hne : i.toNat ≠ j.toNat := fun e => h (BitVec.eq_of_toNat_eq e.symm)
  induction m with
  | nil => exact Memory.read_place_ne v [] h
  | cons c rest ih =>
    obtain ⟨k, x⟩ := c
    simp only [Memory.write]
    split
    · exact Memory.read_place_ne v _ h
    · split
      next hk => rw [Memory.read_place_ne v _ h, Memory.read_cons, if_neg (by omega)]
      · simp [Memory.read_cons, ih]

theorem Memory.wfFrom_mono {lo lo' : Nat} (hle : lo' ≤ lo) {m : Memory} (h : Memory.wfFrom lo m = true) :
    Memory.wfFrom lo' m = true := by
  cases m with
  | nil => rfl
  | cons c rest =>
    obtain ⟨k, v⟩ := c
    simp only [Memory.wfFrom, Bool.and_eq_true, decide_eq_true_eq] at h ⊢
    exact ⟨⟨⟨by omega, h.1.1.2⟩, h.1.2⟩, h.2⟩

/-- An index below the first listed one reads as an unlisted one. -/
theorem Memory.read_below {lo : Nat} {m : Memory} (h : Memory.wfFrom lo m = true) {i : BufIndex} (hi : i.toNat < lo) :
    Memory.read m i = 0x00#8 := by
  induction m generalizing lo with
  | nil => rfl
  | cons c rest ih =>
    obtain ⟨k, v⟩ := c
    simp only [Memory.wfFrom, Bool.and_eq_true, decide_eq_true_eq] at h
    rw [Memory.read_cons, if_neg (by omega)]
    exact ih h.2 (by omega)

theorem Memory.read_place_same {rest : Memory} {i : BufIndex} (h : Memory.wfFrom (i.toNat + 1) rest = true) (v : Byte) :
    Memory.read (Memory.place i v rest) i = v := by
  unfold Memory.place
  split
  next hv => rw [hv]; exact Memory.read_below h (by omega)
  · simp [Memory.read_cons]

/-- The written index reads as the byte written. -/
theorem Memory.read_write_same {lo : Nat} {m : Memory} (h : Memory.wfFrom lo m = true) (i : BufIndex) (v : Byte) :
    Memory.read (Memory.write m i v) i = v := by
  induction m generalizing lo with
  | nil => exact Memory.read_place_same (rest := []) rfl v
  | cons c rest ih =>
    obtain ⟨k, x⟩ := c
    have h' := h
    simp only [Memory.wfFrom, Bool.and_eq_true, decide_eq_true_eq] at h
    simp only [Memory.write]
    split
    next hlt =>
      refine Memory.read_place_same ?_ v
      simp only [Memory.wfFrom, Bool.and_eq_true, decide_eq_true_eq]
      exact ⟨⟨⟨by omega, h.1.1.2⟩, h.1.2⟩, h.2⟩
    · split
      next hk => exact Memory.read_place_same (hk ▸ h.2) v
      next hk => rw [Memory.read_cons, if_neg hk]; exact ih h.2

theorem Memory.read_write {m : Memory} (h : m.wf = true) (i j : BufIndex) (v : Byte) :
    Memory.read (Memory.write m i v) j = if j = i then v else Memory.read m j := by
  split
  next hj => rw [hj]; exact Memory.read_write_same h i v
  next hj => exact Memory.read_write_ne m v hj

theorem Memory.wfFrom_place {lo : Nat} {rest : Memory} {i : BufIndex} (hlo : lo ≤ i.toNat)
    (h : Memory.wfFrom (i.toNat + 1) rest = true) (v : Byte) : Memory.wfFrom lo (Memory.place i v rest) = true := by
  unfold Memory.place
  split
  · exact Memory.wfFrom_mono (by omega) h
  next hv =>
    have := i.isLt
    simp only [Memory.wfFrom, Bool.and_eq_true, decide_eq_true_eq]
    exact ⟨⟨⟨hlo, by omega⟩, hv⟩, h⟩

theorem Memory.wfFrom_write {lo : Nat} {m : Memory} (h : Memory.wfFrom lo m = true) {i : BufIndex} (hlo : lo ≤ i.toNat)
    (v : Byte) : Memory.wfFrom lo (Memory.write m i v) = true := by
  induction m generalizing lo with
  | nil => exact Memory.wfFrom_place hlo rfl v
  | cons c rest ih =>
    obtain ⟨k, x⟩ := c
    have h' := h
    simp only [Memory.wfFrom, Bool.and_eq_true, decide_eq_true_eq] at h
    simp only [Memory.write]
    split
    next hlt =>
      refine Memory.wfFrom_place hlo ?_ v
      simp only [Memory.wfFrom, Bool.and_eq_true, decide_eq_true_eq]
      exact ⟨⟨⟨by omega, h.1.1.2⟩, h.1.2⟩, h.2⟩
    · split
      next hk => exact Memory.wfFrom_place hlo (hk ▸ h.2) v
      next hk =>
        simp only [Memory.wfFrom, Bool.and_eq_true, decide_eq_true_eq]
        exact ⟨⟨⟨h.1.1.1, h.1.1.2⟩, h.1.2⟩, ih h.2 (by omega)⟩

/-- A write keeps the canonical form. -/
theorem Memory.wf_write {m : Memory} (h : m.wf = true) (i : BufIndex) (v : Byte) : (Memory.write m i v).wf = true :=
  Memory.wfFrom_write h (Nat.zero_le _) v

/-- The length field keeps the canonical form. -/
theorem writeLengthBytes_wf {m : Memory} (h : m.wf = true) (v : Len) (n : Nat) : (writeLengthBytes m v n).wf = true := by
  induction n with
  | zero => exact h
  | succ n ih => exact Memory.wf_write ih _ _

theorem writeLengthField_wf {m : Memory} (h : m.wf = true) (v : Len) : (writeLengthField m v).wf = true :=
  writeLengthBytes_wf h v 8

theorem lengthByteIndex_toNat {k : Nat} (h : k < 8) : (lengthByteIndex k).toNat = 56 + k := by
  simp only [lengthByteIndex, BitVec.toNat_ofNat]; omega

theorem writeLengthBytes_read {m : Memory} (h : m.wf = true) (v : Len) {n : Nat} (hn : n ≤ 8) (i : BufIndex) :
    Memory.read (writeLengthBytes m v n) i
      = if 56 ≤ i.toNat ∧ i.toNat < 56 + n then lenByte v (i.toNat - 56) else Memory.read m i := by
  induction n with
  | zero => simp only [writeLengthBytes]; rw [if_neg (by omega)]
  | succ n ih =>
    have hk := lengthByteIndex_toNat (k := n) (by omega)
    have ih := ih (by omega)
    rw [writeLengthBytes, Memory.read_write (writeLengthBytes_wf h v n), ih]
    by_cases hi : i = lengthByteIndex n
    · subst hi
      rw [if_pos rfl, if_pos (by omega), hk, Nat.add_sub_cancel_left]
    · have hne : i.toNat ≠ 56 + n := fun e => hi (BitVec.eq_of_toNat_eq (by rw [e, hk]))
      rw [if_neg hi]
      by_cases hr : 56 ≤ i.toNat ∧ i.toNat < 56 + n
      · rw [if_pos hr, if_pos (by omega)]
      · rw [if_neg hr, if_neg (by omega)]

/-- The length field holds the eight bytes of v, and every other index is unchanged (R53). -/
theorem writeLengthField_read {m : Memory} (h : m.wf = true) (v : Len) (i : BufIndex) :
    Memory.read (writeLengthField m v) i = if 56 ≤ i.toNat then lenByte v (i.toNat - 56) else Memory.read m i := by
  have := i.isLt
  rw [writeLengthField, writeLengthBytes_read h v (Nat.le_refl 8)]
  by_cases hi : 56 ≤ i.toNat
  · rw [if_pos ⟨hi, by omega⟩, if_pos hi]
  · rw [if_neg (fun hh => hi hh.1), if_neg hi]

theorem Memory.read_eq_zero_iff_nil {lo : Nat} {m : Memory} (h : Memory.wfFrom lo m = true)
    (hz : ∀ i : BufIndex, Memory.read m i = 0x00#8) : m = [] := by
  cases m with
  | nil => rfl
  | cons c rest =>
    obtain ⟨k, v⟩ := c
    simp only [Memory.wfFrom, Bool.and_eq_true, decide_eq_true_eq] at h
    have hk : (BitVec.ofNat 6 k).toNat = k := by simp only [BitVec.toNat_ofNat]; omega
    have := hz (BitVec.ofNat 6 k)
    rw [Memory.read_cons, if_pos hk.symm] at this
    exact absurd this h.1.2

/-- Canonical buffers with equal contents are equal lists. -/
theorem Memory.ext_from {lo : Nat} {m m' : Memory} (h : Memory.wfFrom lo m = true) (h' : Memory.wfFrom lo m' = true)
    (heq : ∀ i : BufIndex, Memory.read m i = Memory.read m' i) : m = m' := by
  induction m generalizing lo m' with
  | nil => exact (Memory.read_eq_zero_iff_nil h' fun i => (heq i).symm).symm
  | cons c rest ih =>
    obtain ⟨k, v⟩ := c
    cases m' with
    | nil => exact Memory.read_eq_zero_iff_nil h heq
    | cons c' rest' =>
      obtain ⟨k', v'⟩ := c'
      simp only [Memory.wfFrom, Bool.and_eq_true, decide_eq_true_eq] at h h'
      have hk : (BitVec.ofNat 6 k).toNat = k := by simp only [BitVec.toNat_ofNat]; omega
      have hk' : (BitVec.ofNat 6 k').toNat = k' := by simp only [BitVec.toNat_ofNat]; omega
      have e := heq (BitVec.ofNat 6 k)
      have e' := heq (BitVec.ofNat 6 k')
      simp only [Memory.read_cons, hk, hk', if_true] at e e'
      have hkk : k = k' := by
        rcases Nat.lt_trichotomy k k' with hlt | heq' | hgt
        · rw [if_neg (by omega), Memory.read_below h'.2 (by omega)] at e; exact absurd e h.1.2
        · exact heq'
        · rw [if_neg (by omega), Memory.read_below h.2 (by omega)] at e'; exact absurd e'.symm h'.1.2
      subst hkk
      simp only [if_true] at e
      subst e
      refine congrArg _ (ih h.2 h'.2 fun i => ?_)
      have ei := heq i
      simp only [Memory.read_cons] at ei
      by_cases hi : k = i.toNat
      · rw [Memory.read_below h.2 (by omega), Memory.read_below h'.2 (by omega)]
      · simpa [hi] using ei

theorem Memory.ext {m m' : Memory} (h : m.wf = true) (h' : m'.wf = true)
    (heq : ∀ i : BufIndex, Memory.read m i = Memory.read m' i) : m = m' := Memory.ext_from h h' heq

end Sys2Proof.Machine
end

