-- ==== Sys2Proof/Laws/Engine.lean ====
section
/-! SUPPORT. The engine's edges: what they keep, and that the controller looks at nothing but its own registers. -/

namespace Sys2Proof.Machine

theorem State.settled_of_not_busy {s : State} (hb : s.busy = false) : s.settled = s.ctx :=
  State.settled_of_idle (State.busy_eq_false.mp hb)

theorem State.absorb_ctx (s : State) (f a r) : (s.absorb f a r).ctx = if f then a else r := by
  cases f
  · rfl
  · simp [State.absorb_full]

theorem State.absorb_ctl (s : State) (f a r) : (s.absorb f a r).ctl = if f then .round else s.ctl := by
  cases f
  · rfl
  · simp [State.absorb_full]

theorem State.controllerEdge_ctx (s : State) (hne : s.controllerEdge.ctl ≠ .idle) :
    s.controllerEdge.ctx.mode = s.ctx.mode ∧ s.controllerEdge.ctx.dig = s.ctx.dig ∧
      (s.ctx.buf.wf = true → s.controllerEdge.ctx.buf.wf = true) := by
  unfold State.controllerEdge at *
  cases hc : s.ctl <;> simp only [hc] at hne ⊢
  · exact ⟨trivial, trivial, fun h => h⟩
  · unfold State.roundEdge; simp only; split <;> simp
  · exact ⟨rfl, rfl, fun h => h⟩
  · unfold State.padEdge; simp only
    split
    · simp only [State.startStep_ctx, Context.append_mode, Context.append_dig, Context.append_buf]
      exact ⟨trivial, trivial, fun h => Memory.wf_write h _ _⟩
    · split <;> simp only [Context.append_mode, Context.append_dig, Context.append_buf] <;>
        exact ⟨trivial, trivial, fun h => Memory.wf_write h _ _⟩
  · unfold State.lenwEdge
    simp only [State.startStep_ctx, Context.writeLength_mode, Context.writeLength_dig, Context.writeLength_buf]
    exact ⟨trivial, trivial, fun h => writeLengthField_wf h _⟩
  · exact absurd rfl hne

theorem State.engineProgress_ctx (s : State) :
    s.engineProgress.ctx.mode = s.ctx.mode ∧ s.engineProgress.ctx.dig = s.ctx.dig ∧
      (s.ctx.buf.wf = true → s.engineProgress.ctx.buf.wf = true) := by
  unfold State.engineProgress; split
  · exact ⟨rfl, rfl, id⟩
  next h => exact State.controllerEdge_ctx s h

theorem rounds_append (m : Vector Word 16) (a : Nat) : ∀ (b i : Nat) (w : Quad),
    rounds m (a + b) i w = rounds m b (i + a) (rounds m a i w) := by
  induction a with
  | zero => intro b i w; simp [rounds]
  | succ a ih =>
    intro b i w
    rw [Nat.succ_add]
    show rounds m (a + b) (i+1) _ = rounds m b (i + (a+1)) (rounds m a (i+1) _)
    rw [ih]; congr 1; omega

theorem State.controllerRun_append (a : Nat) : ∀ (s : State) (b : Nat),
    s.controllerRun (a + b) = (s.controllerRun a).controllerRun b := by
  induction a with
  | zero => intro s b; simp [State.controllerRun]
  | succ a ih => intro s b; rw [Nat.succ_add]; exact ih _ _

theorem roundsPerEdge_of_pipelined {e : Engine} (h : pipelined e = true) : roundsPerEdge e = 1 := by
  revert h; cases e <;> decide

/-- What the next ROUND edge takes in is the result r just put away. -/
theorem State.roundInput_putRound (s : State) (r : Stage) (h : s.rnd.toNat + roundsPerEdge s.params.engine < 64)
    (hw : pipelined s.params.engine = false → r.words = messageWords s.ctx.buf) :
    State.roundInput { s.putRound r with rnd := s.rnd + BitVec.ofNat 6 (roundsPerEdge s.params.engine) } = r := by
  unfold State.roundInput State.putRound
  by_cases he : pipelined s.params.engine = true
  · rw [roundsPerEdge_of_pipelined he] at h ⊢
    have hne : s.rnd + BitVec.ofNat 6 1 ≠ 0#6 := by
      intro hz; have := congrArg BitVec.toNat hz; simp at this; omega
    have hsub : s.rnd + BitVec.ofNat 6 1 - 1#6 = s.rnd := BitVec.add_sub_cancel _ _
    simp only [he, if_true, if_neg hne, hsub]
    exact Vector.getElem_set_self _
  · simp only [if_neg he]
    rw [← hw (by simpa using he)]

/-- What ACCUM adds is the result r of the last ROUND edge. -/
theorem State.stepOutput_putRound (s : State) (r : Stage) (h : s.rnd.toNat + roundsPerEdge s.params.engine = 64) :
    State.stepOutput { s.putRound r with ctl := .accum } = r.work := by
  unfold State.stepOutput State.putRound
  by_cases he : pipelined s.params.engine = true
  · have hr : s.rnd.toNat = 63 := by rw [roundsPerEdge_of_pipelined he] at h; omega
    simp [he, hr]
  · simp [he]

/-- The state with the registers the controller neither reads nor writes replaced. -/
def State.surrounded (s : State) (fl : Option Flight) (er : Bool) (ec : Cause)
    (inp : List HostAction) : State :=
  { s with flight := fl, err := er, ecause := ec, inputs := inp }

theorem State.roundEdge_surrounded (s fl er ec inp) :
    (State.surrounded s fl er ec inp).roundEdge = State.surrounded s.roundEdge fl er ec inp := by
  unfold State.roundEdge State.putRound State.surrounded State.roundResult State.roundInput
  simp only
  (repeat' split) <;> rfl

theorem State.padEdge_surrounded (s fl er ec inp) :
    (State.surrounded s fl er ec inp).padEdge = State.surrounded s.padEdge fl er ec inp := by
  unfold State.padEdge State.surrounded State.startStep State.padByte
  simp only
  split
  · rfl
  · split <;> rfl

theorem State.controllerEdge_surrounded (s fl er ec inp) :
    (State.surrounded s fl er ec inp).controllerEdge = State.surrounded s.controllerEdge fl er ec inp := by
  unfold State.controllerEdge
  rw [show (State.surrounded s fl er ec inp).ctl = s.ctl from rfl]
  cases h : s.ctl
  · rfl
  · exact State.roundEdge_surrounded _ _ _ _ _
  · rfl
  · exact State.padEdge_surrounded _ _ _ _ _
  · rfl
  · rfl

theorem State.controllerRun_surrounded (n : Nat) : ∀ (s fl er ec inp),
    (State.surrounded s fl er ec inp).controllerRun n = State.surrounded (s.controllerRun n) fl er ec inp := by
  induction n with
  | zero => intros; rfl
  | succ n ih =>
    intro s fl er ec inp
    show (State.surrounded s fl er ec inp).controllerEdge.controllerRun n = _
    rw [State.controllerEdge_surrounded, ih]; rfl

end Sys2Proof.Machine
end

