-- ==== Sys2Proof/Laws/PerInstr.lean ====
section
/-! SUPPORT. A fact of every instruction as syntax: the word it is encoded by fits its row of spec/opcode_table.json. -/

namespace Sys2Proof.Laws.MatchMask

/-- The row's match and mask (R78): a command word c of the row has `c & mask = match`. -/
def row : Instr → BitVec 16 × BitVec 16
  | .init => (0x1000, 0xFFFF)
  | .write _ => (0x2000, 0xFF00)
  | .commit _ => (0x3000, 0xFF00)
  | .finish => (0x4000, 0xFFFF)
  | .rawWrite _ _ => (0x0000, 0x0000)
  | .reservedOp0 _ => (0x0000, 0xF000)
  | .reservedOp5 _ => (0x5000, 0xF000)
  | .reservedOp6 _ => (0x6000, 0xF000)
  | .reservedOp7 _ => (0x7000, 0xF000)
  | .reservedOp8 _ => (0x8000, 0xF000)
  | .reservedOp9 _ => (0x9000, 0xF000)
  | .reservedOpA _ => (0xA000, 0xF000)
  | .reservedOpB _ => (0xB000, 0xF000)
  | .reservedOpC _ => (0xC000, 0xF000)
  | .reservedOpD _ => (0xD000, 0xF000)
  | .reservedOpE _ => (0xE000, 0xF000)
  | .reservedOpF _ => (0xF000, 0xF000)

/-- A port word fits a row: a command word under the mask, a bundle in the one row of the raw port (R76). -/
def fits (r : BitVec 16 × BitVec 16) : PortWord → Prop
  | .command c => c &&& r.2 = r.1
  | .raw _ => r = (0x0000, 0x0000)

def Statement (i : Instr) : Prop := fits (row i) (encode i)

/-- An operation code above any twelve bits, under the OP mask. -/
theorem op_under_mask (op : BitVec 4) (low : BitVec 12) : (op ++ low) &&& (0xF000 : BitVec 16) = op ++ 0#12 := by
  have h : (0xF000 : BitVec 16) = (0xF : BitVec 4) ++ 0#12 := by decide
  rw [h, BitVec.and_append, show (0xF : BitVec 4) = BitVec.allOnes 4 by decide, BitVec.and_allOnes]
  simp

/-- An operation code above a zero-extended argument, under the mask of OP and RSV. -/
theorem arg_under_mask (op : BitVec 4) (b : Byte) :
    (op ++ argLow b) &&& (0xFF00 : BitVec 16) = op ++ 0#12 := by
  have h : (0xFF00 : BitVec 16) = (0xF : BitVec 4) ++ ((0xF : BitVec 4) ++ (0 : BitVec 8)) := by decide
  rw [h, argLow, BitVec.and_append, BitVec.and_append, show (0xF : BitVec 4) = BitVec.allOnes 4 by decide,
    BitVec.and_allOnes]
  simp

theorem init : Statement .init := rfl
theorem write (b : Byte) : Statement (.write b) := (arg_under_mask 0x2 b).trans rfl
theorem commit (n : Byte) : Statement (.commit n) := (arg_under_mask 0x3 n).trans rfl
theorem finish : Statement .finish := rfl
theorem rawWrite (a : BufIndex) (d : Byte) : Statement (.rawWrite a d) := rfl
theorem reservedOp0 (low : BitVec 12) : Statement (.reservedOp0 low) := (op_under_mask 0x0 low).trans rfl
theorem reservedOp5 (low : BitVec 12) : Statement (.reservedOp5 low) := (op_under_mask 0x5 low).trans rfl
theorem reservedOp6 (low : BitVec 12) : Statement (.reservedOp6 low) := (op_under_mask 0x6 low).trans rfl
theorem reservedOp7 (low : BitVec 12) : Statement (.reservedOp7 low) := (op_under_mask 0x7 low).trans rfl
theorem reservedOp8 (low : BitVec 12) : Statement (.reservedOp8 low) := (op_under_mask 0x8 low).trans rfl
theorem reservedOp9 (low : BitVec 12) : Statement (.reservedOp9 low) := (op_under_mask 0x9 low).trans rfl
theorem reservedOpA (low : BitVec 12) : Statement (.reservedOpA low) := (op_under_mask 0xA low).trans rfl
theorem reservedOpB (low : BitVec 12) : Statement (.reservedOpB low) := (op_under_mask 0xB low).trans rfl
theorem reservedOpC (low : BitVec 12) : Statement (.reservedOpC low) := (op_under_mask 0xC low).trans rfl
theorem reservedOpD (low : BitVec 12) : Statement (.reservedOpD low) := (op_under_mask 0xD low).trans rfl
theorem reservedOpE (low : BitVec 12) : Statement (.reservedOpE low) := (op_under_mask 0xE low).trans rfl
theorem reservedOpF (low : BitVec 12) : Statement (.reservedOpF low) := (op_under_mask 0xF low).trans rfl

end Sys2Proof.Laws.MatchMask
end

