-- ==== Sys2Proof/Laws/Step.lean ====
section
/-! SUPPORT. What one port's word and one rising edge can do, said once. -/

namespace Sys2Proof.Machine

theorem perform_answers (w : Option PortWord) (s : State) : ∃ t, perform w s = .next t :=
  let ⟨t, h, _⟩ := perform_case w s; ⟨t, h⟩

theorem decode_raw_ok {hasRaw : Bool} {b : BitVec 14} {i : Instr}
    (h : decode hasRaw (.raw b) = .ok i) : hasRaw = true ∧ ∃ a d, i = .rawWrite a d := by
  simp only [decode, decodeRaw] at h; split at h <;> cases h
  next hr => exact ⟨hr, _, _, rfl⟩

/-- What the raw port can do at an edge: nothing, raise an error, or store one byte (R104). -/
theorem perform_raw_case (w : Option (BitVec 14)) (s : State) : ∃ t, perform (w.map .raw) s = .next t ∧
    (t = s ∨ (∃ c, c ≠ .none ∧ t = s.raise c) ∨
      ∃ a d, s.busy = false ∧ s.ctx.mode = .active ∧ t = s.rawWritten a d) := by
  cases w with
  | none => exact ⟨s, rfl, .inl rfl⟩
  | some b =>
    simp only [Option.map_some, perform]
    cases hd : decode s.params.hasRawPort (.raw b) with
    | error r =>
      refine ⟨_, rfl, ?_⟩
      cases r with
      | noRawPort => exact .inl rfl
      | illegalOp => exact .inr (.inl ⟨_, by decide, rfl⟩)
      | reservedBits => exact .inr (.inl ⟨_, by decide, rfl⟩)
    | ok i =>
      obtain ⟨hr, a, d, rfl⟩ := decode_raw_ok hd
      obtain ⟨t, h, hc⟩ := exec_case (.rawWrite a d) s
      refine ⟨t, h, ?_⟩
      cases hc with
      | same => exact .inl rfl
      | error _ c hc => exact .inr (.inl ⟨_, hc, rfl⟩)
      | rawWrite _ _ hb hr hm => exact .inr (.inr ⟨a, d, hb, hm, rfl⟩)

/-- Everything one edge can do: a reset (R231); or the raw port's effect, then the engine's edge while BUSY = 1, else the
command port's effect (R71, R105). -/
theorem step_inversion (s : State) {p rest} (h : nextPins s.busy s.inputs = (p, rest)) :
    ∃ t, step s = .next t ∧
     ((p.rst = true ∧ t = State.afterReset s.params (p.heldOver false ++ rest)) ∨
      (p.rst = false ∧ ∃ u, perform (p.raw.map .raw) (s.afterPins p rest) = .next u ∧
        ((s.busy = true ∧ u.busy = true ∧ t = u.engineEdge) ∨
         (s.busy = false ∧ u.busy = false ∧ perform (p.cmd.map .command) u = .next t)))) := by
  simp only [step, clockEdge, h, edge]
  cases hr : p.rst with
  | true => exact ⟨_, rfl, .inl ⟨rfl, by simp [State.cmdReady, hr]⟩⟩
  | false =>
    obtain ⟨u, hu, hc⟩ := perform_raw_case p.raw (s.afterPins p rest)
    have hub : u.busy = s.busy := by
      rcases hc with rfl | ⟨c, -, rfl⟩ | ⟨a, d, hb, hm, rfl⟩
      · simp
      · simp
      · rfl
    rw [if_neg (by decide), hu, andThen_next, commandPhase]
    cases hb : s.busy with
    | true =>
      rw [if_pos (hub.trans hb)]
      exact ⟨_, rfl, .inr ⟨rfl, u, rfl, .inl ⟨rfl, hub.trans hb, rfl⟩⟩⟩
    | false =>
      rw [if_neg (by rw [hub, hb]; decide)]
      obtain ⟨t, ht⟩ := perform_answers (p.cmd.map .command) u
      exact ⟨t, ht, .inr ⟨rfl, u, rfl, .inr ⟨rfl, hub.trans hb, ht⟩⟩⟩

theorem State.engineEdge_params (s : State) : s.engineEdge.params = s.params := by
  unfold State.engineEdge State.engineComplete State.engineProgress
  split
  · rfl
  · simp
  · simp only []; split <;> simp

theorem State.engineEdge_flags (s : State) : s.engineEdge.err = s.err ∧ s.engineEdge.ecause = s.ecause := by
  unfold State.engineEdge State.engineComplete State.engineProgress
  split
  · exact ⟨rfl, rfl⟩
  · simp
  · simp only []; split <;> simp

end Sys2Proof.Machine
end

