-- ==== Sys2Proof/Laws/Transactions.lean ====
section
/-! SUPPORT. PUT, COMMIT and FINISH's padding on the architectural registers: when a block completes, what each leaves in
BUF, LEN and ACC. -/

namespace Sys2Proof.Machine

theorem offset_add_one (l : Len) : offset (l + 1#64) = offset l + 1#6 := by
  apply BitVec.eq_of_toNat_eq
  simp [offset, BitVec.extractLsb'_toNat]

theorem toNat_offset (l : Len) : (offset l).toNat = l.toNat % 64 := by
  simp [offset, BitVec.extractLsb'_toNat]

theorem byteFills_iff_offset (l : Len) : byteFills l = true ↔ offset l = 63#6 := by simp [byteFills]

theorem Context.put_of_space {c : Context} (h : offset c.len ≠ 63#6) (b) : c.put b = c.append b := by
  simp [Context.put, byteFills, h]

theorem Context.put_of_last {c : Context} (h : offset c.len = 63#6) (b) : c.put b = (c.append b).step := by
  simp [Context.put, byteFills, h]

theorem commitFills_iff (n : Byte) (len : Len) : commitFills n len = true ↔ n.toNat + (offset len).toNat = 64 := by
  have := (offset len).isLt
  simp [commitFills, commitCount, spaceLeft]; omega

theorem commitOverflows_iff (n : Byte) (len : Len) : commitOverflows n len = true ↔ 64 < n.toNat + (offset len).toNat := by
  have := (offset len).isLt
  unfold commitOverflows commitCount spaceLeft
  rw [decide_eq_true_eq]; omega

theorem Context.commit_of_space {c : Context} {n : Byte} (h : commitFills n c.len = false) : c.commit n = c.count n := by
  simp [Context.commit, h]

theorem Context.commit_of_last {c : Context} {n : Byte} (h : commitFills n c.len = true) : c.commit n = (c.count n).step := by
  simp [Context.commit, h]

theorem messageWords_get (m : Memory) (j : Fin 16) : (messageWords m)[j] = messageWord m j := by
  revert j
  have : ∀ j : Nat, (h : j < 16) → (messageWords m)[j] = messageWord m j := by
    intro j h; interval_cases j <;> rfl
  intro j; exact this j j.2

theorem toNat_offset_next {l : Len} (h : (offset l).toNat ≠ 63) : (offset (l + 1#64)).toNat = (offset l).toNat + 1 := by
  rw [offset_add_one]; have := (offset l).isLt; simp; omega

theorem toNat_offset_wrap {l : Len} (h : (offset l).toNat = 63) : (offset (l + 1#64)).toNat = 0 := by
  rw [offset_add_one]; simp; omega

theorem Context.put_acc_of_space {c : Context} (h : (offset c.len).toNat ≠ 63) (b) : (c.put b).acc = c.acc := by
  rw [Context.put_of_space (fun hh => h (by rw [hh]; rfl))]; simp

theorem Context.put_acc_of_last {c : Context} (h : (offset c.len).toNat = 63) (b) :
    (c.put b).acc = compress c.acc (messageWords (c.put b).buf) := by
  have ho : offset c.len = 63#6 := BitVec.eq_of_toNat_eq (by simpa using h)
  rw [Context.put_of_last ho]; simp

theorem Context.putFill_append (a b : Nat) : ∀ c : Context, c.putFill (a + b) = (c.putFill a).putFill b := by
  induction a with
  | zero => intro c; simp [Context.putFill]
  | succ a ih => intro c; rw [Nat.succ_add]; exact ih _

theorem Context.putFill_kept (n : Nat) : ∀ c : Context,
    (c.putFill n).len = c.len + BitVec.ofNat 64 n ∧ (c.putFill n).dig = c.dig ∧ (c.putFill n).mode = c.mode := by
  induction n with
  | zero => intro c; simp [Context.putFill]
  | succ n ih =>
    intro c; obtain ⟨h1, h2, h3⟩ := ih (c.put padFill)
    refine ⟨?_, h2.trans (Context.put_dig _ _), h3.trans (Context.put_mode _ _)⟩
    show ((c.put padFill).putFill n).len = _
    rw [h1, Context.put_len, BitVec.add_assoc]; congr 1; apply BitVec.eq_of_toNat_eq; simp [Nat.add_comm]

theorem Context.putFill_acc_of_space (n : Nat) : ∀ c : Context,
    (offset c.len).toNat + n < 64 → (c.putFill n).acc = c.acc := by
  induction n with
  | zero => intro c _; rfl
  | succ n ih =>
    intro c h
    show ((c.put padFill).putFill n).acc = _
    rw [ih _ (by rw [Context.put_len, toNat_offset_next (by omega)]; omega), Context.put_acc_of_space (by omega)]

theorem Context.putFill_acc_of_last (n : Nat) : ∀ c : Context, 0 < n →
    (offset c.len).toNat + n = 64 → (c.putFill n).acc = compress c.acc (messageWords (c.putFill n).buf) := by
  induction n with
  | zero => intro c h; omega
  | succ n ih =>
    intro c _ h
    show ((c.put padFill).putFill n).acc = compress _ (messageWords ((c.put padFill).putFill n).buf)
    rcases Nat.eq_zero_or_pos n with rfl | hn
    · exact Context.put_acc_of_last (by omega) _
    · rw [ih _ hn (by rw [Context.put_len, toNat_offset_next (by omega)]; omega), Context.put_acc_of_space (by omega)]

theorem Context.putFill_wf (n : Nat) : ∀ c : Context, c.buf.wf = true → (c.putFill n).buf.wf = true := by
  induction n with
  | zero => intro c h; exact h
  | succ n ih => intro c h; exact ih _ (by rw [Context.put_buf]; exact Memory.wf_write h _ _)

theorem Context.putFill_read (n : Nat) : ∀ c : Context, c.buf.wf = true → ∀ i : BufIndex,
    Memory.read (c.putFill n).buf i =
      if (i.toNat + 64 - (offset c.len).toNat) % 64 < n then 0x00#8 else Memory.read c.buf i := by
  induction n with
  | zero => intro c h i; simp [Context.putFill]
  | succ n ih =>
    intro c h i
    show Memory.read ((c.put padFill).putFill n).buf i = _
    rw [ih _ (by rw [Context.put_buf]; exact Memory.wf_write h _ _), Context.put_len, Context.put_buf, Memory.read_write h]
    have hi := i.isLt; have ho := (offset c.len).isLt
    have e : (i = offset c.len) ↔ i.toNat = (offset c.len).toNat := by rw [BitVec.toNat_inj]
    have e2 : (offset (c.len + 1#64)).toNat = ((offset c.len).toNat + 1) % 64 := by
      by_cases h : (offset c.len).toNat = 63
      · rw [toNat_offset_wrap h]; omega
      · rw [toNat_offset_next h]; omega
    rw [e2]
    simp only [e, padFill]
    split_ifs <;> first | rfl | omega

theorem padLength_setWidth (o : BufIndex) :
    (BitVec.ofNat 7 (padLength o.toNat)).setWidth 64 = BitVec.ofNat 64 (padLength o.toNat) := by
  apply BitVec.eq_of_toNat_eq; have := o.isLt; simp [padLength]; split <;> omega

theorem padLength_bounds (o : BufIndex) : 1 ≤ padLength o.toNat ∧ padLength o.toNat ≤ 64 := by
  have := o.isLt; unfold padLength; split <;> omega

theorem Context.pad_len (c : Context) : c.pad.len = c.len + BitVec.ofNat 64 (padLength (offset c.len).toNat) := by
  have := padLength_bounds (offset c.len)
  rw [Context.pad, (Context.putFill_kept _ _).1, Context.put_len, BitVec.add_assoc]; congr 1
  apply BitVec.eq_of_toNat_eq; simp; omega

end Sys2Proof.Machine
end

