-- ==== Sys2Proof/Tests/Slice0.lean ====
section
/-! SUPPORT. The model's own tests. Expected values come from spec/95_test_vectors.md (V<n>), from the spec's examples or
from the encodings of spec/30_encoding.md; `test_witness_<Name>` shows that the hypotheses of Obligations.<Name> can be met
together. -/

namespace Sys2Proof.Tests

open Sys2Proof Sys2Proof.Machine

/-- A reset core whose LEN and BUF are forced, as in V28, V32 and V33. -/
def bench (len : Len) (buf : Memory) : State :=
  { State.reset with ctx := { Context.initial with len := len, buf := buf } }

/-- A core that has finished: the start "FINISHED" of V33 and V34 (`HASH ""` done), by DIG and MODE. -/
def finished : State :=
  { State.reset with ctx := { Context.initial with mode := .finished, dig := serialise Context.initial.acc } }

/-- A busy core whose controller is in OUT, two BUSY cycles before the end. -/
def busy : State :=
  { State.reset with ctl := .out, flight := some ⟨1, Context.initial.emit⟩ }

/-- The same core at its last BUSY cycle. -/
def ending : State :=
  { State.reset with ctl := .out, flight := some ⟨0, Context.initial.emit⟩ }

/-- A core without the raw port (R8). -/
def rawless : State := State.afterReset (referenceParams .seq false) []

/-- A pipelined core (R132) with LEN and BUF forced. -/
def pipe (len : Len) (buf : Memory) : State :=
  { State.afterReset (referenceParams .pipe64 true) [] with ctx := { Context.initial with len := len, buf := buf } }

/-- The state with the host's pins of the next edge. -/
def driven (s : State) (p : Pins) : State := { s with inputs := [.drive p] }

/-- A word on the command port at the next edge. -/
def word (s : State) (w : BitVec 16) : State := driven s { cmd := some w }

/-- What f reads after an outcome that is a next state. -/
def after {α : Type} (o : Host.Outcome State Fault Refusal) (f : State → α) : Option α :=
  match o with
  | .next t => some (f t)
  | .fault _ => none
  | .refused _ => none

/-! ### WellFormed: the ill-formed terms -/

theorem test_commit_needs_the_raw_port : (Instr.commit 3).wellFormed false = false := by decide
theorem test_rawWrite_needs_the_raw_port : (Instr.rawWrite 5 0x7a).wellFormed false = false := by decide

/-! ### Decode: words written out from R73, R76 and R78 -/

theorem test_decode_init : decodeTableWord 16 0b0001000000000000 = some .init := by decide
theorem test_decode_write : decodeTableWord 16 0b0010000010110111 = some (.write 0xb7) := by decide
theorem test_decode_commit : decodeTableWord 16 0b0011000001000001 = some (.commit 65) := by decide
theorem test_decode_finish : decodeTableWord 16 0b0100000000000000 = some .finish := by decide
theorem test_decode_rawWrite : decodeTableWord 14 0b11111000000001 = some (.rawWrite 62 1) := by decide
theorem test_decode_reservedOp0 : decodeTableWord 16 0b0000000100000000 = some (.reservedOp0 0x100) := by decide
theorem test_decode_reservedOp5 : decodeTableWord 16 0b0101000000000000 = some (.reservedOp5 0) := by decide
theorem test_decode_reservedOp6 : decodeTableWord 16 0b0110000000000001 = some (.reservedOp6 1) := by decide
theorem test_decode_reservedOp7 : decodeTableWord 16 0b0111100000000000 = some (.reservedOp7 0x800) := by decide
theorem test_decode_reservedOp8 : decodeTableWord 16 0b1000000000000000 = some (.reservedOp8 0) := by decide
theorem test_decode_reservedOp9 : decodeTableWord 16 0b1001000000000010 = some (.reservedOp9 2) := by decide
theorem test_decode_reservedOpA : decodeTableWord 16 0b1010000000000000 = some (.reservedOpA 0) := by decide
theorem test_decode_reservedOpB : decodeTableWord 16 0b1011000000000000 = some (.reservedOpB 0) := by decide
theorem test_decode_reservedOpC : decodeTableWord 16 0b1100000000000000 = some (.reservedOpC 0) := by decide
theorem test_decode_reservedOpD : decodeTableWord 16 0b1101000000000000 = some (.reservedOpD 0) := by decide
theorem test_decode_reservedOpE : decodeTableWord 16 0b1110000000000000 = some (.reservedOpE 0) := by decide
theorem test_decode_reservedOpF : decodeTableWord 16 0b1111111111111111 = some (.reservedOpF 0xfff) := by decide
/-- R80: RSV != 0, and ARG != 0 for an operand-free command, are no instruction. -/
theorem test_decode_reserved_bits :
    [0x1001, 0x1100, 0x2161, 0x3100, 0x4001].map (decodeTableWord 16) = [none, none, none, none, none] := by decide

/-! ### The datapath: V25, V26, V27, V29, V30 -/

theorem test_fF : fF 0x12345678 0x9abcdef0 0x0fedcba9 = 0x1ffddff1 := by decide
theorem test_fG : fG 0x12345678 0x9abcdef0 0x0fedcba9 = 0x92345678 := by decide
theorem test_fH : fH 0x12345678 0x9abcdef0 0x0fedcba9 = 0x87654321 := by decide
theorem test_fI : fI 0x12345678 0x9abcdef0 0x0fedcba9 = 0x688aa88e := by decide
theorem test_rotl32 : rotl32 0xdeadbeef 17 = 0x7ddfbd5b ∧ rotl32 1 31 = 0x80000000 := by decide
theorem test_schedule :
    [0, 15, 16, 19, 31, 32, 33, 47, 48, 49, 63].map (fun i => (wordIndex i).val) = [0, 15, 1, 0, 12, 5, 8, 2, 0, 7, 9] := by
  decide
theorem test_K : [0, 15, 16, 31, 32, 47, 48, 63].map kOf =
    [0xd76aa478, 0x49b40821, 0xf61e2562, 0x8d2a4c8a, 0xfffa3942, 0xc4ac5665, 0xf4292244, 0xeb86d391] := by decide
theorem test_S : [0, 15, 16, 31, 32, 47, 48, 63].map sOf = [7, 22, 5, 20, 4, 23, 6, 21] := by decide
/-- V30, rows 0 to 16: the rounds of the first group and one of the second, on the empty-message block. -/
theorem test_rounds : rounds (messageWords [(0, 0x80)]) 17 0 iv =
    ⟨0x374943a7, 0x1c7d7513, 0xd6819c6a, 0x5aa53f75⟩ := by decide +kernel
/-- V29, last row. -/
theorem test_compress : compress iv (messageWords [(0, 0x80)]) =
    ⟨0xd98c1dd4, 0x04b2008f, 0x980980e9, 0x7e42f8ec⟩ := by decide +kernel
/-- V29, second row. -/
theorem test_compress_zero : compress ⟨0, 0, 0, 0⟩ (messageWords []) =
    ⟨0xf7cd1c97, 0xa5483681, 0x2b68d832, 0xf90ca639⟩ := by decide +kernel

/-! ### The instructions: V1, V28, V32, V33, V34 -/

/-- R100's example. -/
theorem test_init : after (exec .init finished) (fun t => (t.ctx.acc, t.ctx.len, t.status)) =
    some (⟨0x67452301, 0xefcdab89, 0x98badcfe, 0x10325476⟩, 0, 0x40) := by decide
theorem test_write : after (exec (.write 0x61) State.reset) (fun t => (t.bufByte 0, t.ctx.len, t.status)) =
    some (0x61, 1, 0x40) := by decide
/-- V28: at LEN = 63 BUSY is set; R102: at LEN = 2^64 - 1 the count wraps to 0 at a block boundary. -/
theorem test_write_fills : after (exec (.write 0x61) (bench 0xffffffffffffffff []))
    (fun t => (t.bufByte 63, t.ctx.len, t.status)) = some (0x61, 0, 0x41) := by decide +kernel
/-- V33, fifth row: 61 00*63 is stepped; V33, fourth row: COMMIT 64 at LEN = 1 is refused. -/
theorem test_commit_fills : after (exec (.commit 63) (bench 1 [(0, 0x61)]))
    (fun t => (t.ctx.len, t.status, decide (t.settled.acc = compress iv (messageWords [(0, 0x61)])))) =
    some (64, 0x41, true) := by decide +kernel
theorem test_commit_overflows : after (exec (.commit 64) (bench 1 [(0, 0x61)])) (fun t => (t.ctx.len, t.status)) =
    some (1, 0x64) := by decide
/-- V33: a pending byte is replaced, with no error and LEN unchanged. -/
theorem test_rawWrite : after (exec (.rawWrite 0 0x7a) (bench 2 [(0, 0x61), (1, 0x62)]))
    (fun t => (t.ctx.buf, t.ctx.len, t.status)) = some ([(0, 0x7a), (1, 0x62)], 2, 0x40) := by decide
/-- V33: dropped while BUSY (0x6d), and after FINISH (0x76). -/
theorem test_rawWrite_refused : after (exec (.rawWrite 5 0) busy) State.status = some 0x6d ∧
    after (exec (.rawWrite 0 0) finished) State.status = some 0x76 := by decide
/-- V1: the digest port after FINISH on the empty context. -/
theorem test_finish_empty : after (exec .finish State.reset)
    (fun t => (t.status, digestBits t.settled.dig, t.settled.len, t.settled.buf)) =
    some (0x41, 0x7e42f8ec980980e904b2008fd98c1dd4, 0, [(0, 0x80)]) := by decide +kernel
/-- V32, row 2: o = 63, two STEPs, and the wrap of LEN and of its eightfold. -/
theorem test_finish_wraps : after (exec .finish (bench 0xffffffffffffffff []))
    (fun t => (digestBits t.settled.dig, t.settled.len, t.settled.buf)) =
    some (0x4423e74e19cac5e09d43182e7fea882f, 0xffffffffffffffff,
      [(56, 0xf8), (57, 0xff), (58, 0xff), (59, 0xff), (60, 0xff), (61, 0xff), (62, 0xff), (63, 0xff)]) := by
  decide +kernel
theorem test_reserved_codes :
    [Instr.reservedOp0 0, .reservedOp5 1, .reservedOp6 2, .reservedOp7 3, .reservedOp8 4, .reservedOp9 5, .reservedOpA 6,
      .reservedOpB 7, .reservedOpC 8, .reservedOpD 9, .reservedOpE 10, .reservedOpF 11].map
      (fun i => after (exec i State.reset) State.status) = List.replicate 12 (some 0x4c) := by decide

/-! ### One edge: V33, V34, V35 -/

/-- V34's status column, one step each. -/
theorem test_status_after_words :
    [0x0000, 0x0100, 0x5000, 0xffff, 0x1001, 0x1100, 0x2161, 0x4001, 0x3041].map
      (fun w => after (step (word State.reset w)) State.status) =
    [some 0x4c, some 0x4c, some 0x4c, some 0x4c, some 0x54, some 0x54, some 0x54, some 0x54, some 0x64] := by decide
theorem test_status_after_words_finished :
    [0x3041, 0x2100, 0x2000, 0x4000, 0x1000].map (fun w => after (step (word finished w)) State.status) =
    [some 0x5e, some 0x56, some 0x5e, some 0x5e, some 0x40] := by decide
/-- V33, last row. -/
theorem test_commit_without_raw_port : after (step (word rawless 0x3003)) State.status = some 0x0c := by decide
/-- V33: RAW 0, 0x41 with COMMIT 1 at one edge, and with WRITE 0x42 at one edge. -/
theorem test_same_edge :
    after (step (driven State.reset { raw := some 0x0041, cmd := some 0x3001 })) (fun t => (t.ctx.len, t.ctx.buf)) =
      some (1, [(0, 0x41)]) ∧
    after (step (driven State.reset { raw := some 0x0041, cmd := some 0x2042 })) (fun t => (t.ctx.len, t.ctx.buf)) =
      some (1, [(0, 0x42)]) := by decide
/-- V35: a reset edge abandons what is in progress and ignores the raw write. -/
theorem test_reset_edge : after (step (driven busy { rst := true, raw := some 0x0041 }))
    (fun t => (t.ctx, t.status, t.flight, t.ctl)) = some (Context.initial, 0x40, none, .idle) := by decide
/-- R71: FINISH presented while BUSY = 1 is held for the next edge. -/
theorem test_held_command : after (step (word busy 0x4000)) (fun t => (t.inputs, t.status)) =
    some ([.drive { cmd := some 0x4000 }], 0x41) := by decide
/-- The first instruction after reset is the one `withFetchWord` presents (log 9, log 12). -/
theorem test_withFetchWord : step (State.reset.withFetchWord 16 0x2061) = exec (.write 0x61) State.reset := by rfl

/-! ### The pipeline: R132, with the values of V29 and V30 -/

/-- R124's example: round 0 of the empty-message block, in stage 0. -/
theorem test_pipeline_stage : (((pipe 0 [(0, 0x80)]).startStep .idle).controllerRun 1).stages[0].work =
    ⟨0x10325476, 0xa5202774, 0xefcdab89, 0x98badcfe⟩ := by decide +kernel
/-- V29, last row: the block leaves stage 63 and is accumulated. -/
theorem test_pipeline_step : (((pipe 0 [(0, 0x80)]).startStep .idle).controllerRun 65).ctx.acc =
    ⟨0xd98c1dd4, 0x04b2008f, 0x980980e9, 0x7e42f8ec⟩ := by decide +kernel

/-! ### Witnesses: the hypotheses of each obligation, met together -/

/-- The states used below meet the invariant. -/
theorem ending_inv : ending.Inv :=
  ⟨⟨by decide, by decide⟩, ⟨by decide, by decide⟩, by decide, by decide, by decide⟩
theorem ending_onCourse : ending.ControllerOnCourse := ⟨1, by decide, by decide⟩
theorem finished_inv : finished.Inv :=
  ⟨⟨by decide, by decide⟩, ⟨by decide, by decide⟩, by decide, by decide, by decide⟩

theorem test_witness_ResetEdgeAbandonsEverything : ∃ (s : State) (p : Pins) (rest : List HostAction),
    nextPins s.busy s.inputs = (p, rest) ∧ p.rst = true :=
  ⟨driven busy { rst := true, cmd := some 0x1000, raw := some 0 }, _, _, rfl, rfl⟩
theorem test_witness_DecodeOfEncodeIsTheInstruction :
    (Instr.rawWrite 63 0xff).wellFormed true = true ∧ (Instr.reservedOpF 0xfff).wellFormed false = true := by decide
theorem test_witness_EncodeOfDecodeIsTheWord :
    decode true (.raw 0x3fff) = .ok (.rawWrite 63 0xff) ∧ decode false (.command 0x20ff) = .ok (.write 0xff) := ⟨rfl, rfl⟩
/-- One accepted word for each branch of R79, each on an idle core: the first and the last reserved codes, COMMIT without
the raw port, RSV, ARG, and the four commands at the ends of their operands' ranges. -/
theorem test_witness_AcceptedWordsFollowTheDecodeOrder :
    ((State.reset.busy = false ∧ rawless.busy = false) ∧ rawless.params.hasRawPort = false) ∧
    (∀ c ∈ [0x0fff#16, 0x5000, 0xffff, 0x3000, 0x1100, 0x2f00, 0x3140, 0x4100, 0x1001, 0x40ff, 0x1000, 0x2000, 0x20ff,
      0x3000, 0x30ff, 0x4000],
      nextPins (word State.reset c).busy (word State.reset c).inputs = ({ cmd := some c }, []) ∧
      nextPins (word rawless c).busy (word rawless c).inputs = ({ cmd := some c }, [])) :=
  ⟨⟨⟨rfl, rfl⟩, rfl⟩, fun _ _ => ⟨rfl, rfl⟩⟩
theorem test_witness_StepRunsThePresentedInstruction :
    (nextPins (word State.reset 0x3040).busy (word State.reset 0x3040).inputs = ({ cmd := some 0x3040 }, []) ∧
      (word State.reset 0x3040).busy = false ∧ decode true (.command 0x3040) = .ok (.commit 64)) ∧
    (nextPins false (driven State.reset { raw := some 0x3fff }).inputs = ({ raw := some 0x3fff }, []) ∧
      (driven State.reset { raw := some 0x3fff }).busy = false ∧ decode true (.raw 0x3fff) = .ok (.rawWrite 63 0xff)) :=
  ⟨⟨rfl, rfl, rfl⟩, rfl, rfl, rfl⟩
theorem test_witness_SameEdgeRawWriteComesFirst : ∃ (s : State) (p : Pins) (rest : List HostAction) (b : BitVec 14)
    (c : BitVec 16) (r i : Instr), decode s.params.hasRawPort (.command 0x1001) = .error .reservedBits ∧
    nextPins s.busy s.inputs = (p, rest) ∧ s.busy = false ∧ p.rst = false ∧
    p.raw = some b ∧ p.cmd = some c ∧ decode s.params.hasRawPort (.raw b) = .ok r ∧
    decode s.params.hasRawPort (.command c) = .ok i :=
  ⟨driven State.reset { raw := some 0x0041, cmd := some 0x3001 }, _, _, _, _, .rawWrite 0 0x41, .commit 1,
    rfl, rfl, rfl, rfl, rfl, rfl, rfl, rfl⟩
theorem test_witness_RefusedRawWriteDoesNotBlockTheCommand : ∃ (s : State) (p : Pins) (rest : List HostAction)
    (b : BitVec 14) (c : BitVec 16) (i : Instr), nextPins s.busy s.inputs = (p, rest) ∧ s.busy = false ∧
    s.params.hasRawPort = true ∧ s.ctx.mode = .finished ∧ s.err = false ∧ p.rst = false ∧ p.raw = some b ∧
    p.cmd = some c ∧ decode true (.command c) = .ok i :=
  ⟨driven finished { raw := some 0, cmd := some 0x1000 }, _, _, _, _, .init, rfl, rfl, rfl, rfl, rfl, rfl, rfl, rfl, rfl⟩
theorem test_witness_CommandIsHeldWhileBusy : ∃ (s : State) (p : Pins) (rest : List HostAction) (c : BitVec 16),
    nextPins s.busy s.inputs = (p, rest) ∧ s.busy = true ∧ p.rst = false ∧ p.raw = none ∧ p.cmd = some c :=
  ⟨word busy 0x4000, _, _, _, rfl, rfl, rfl, rfl, rfl⟩
theorem test_witness_RawWriteWhileBusyIsDropped : ∃ (s : State) (p : Pins) (rest : List HostAction) (b : BitVec 14),
    nextPins s.busy s.inputs = (p, rest) ∧ s.busy = true ∧ s.params.hasRawPort = true ∧ p.rst = false ∧ p.cmd = none ∧
    p.raw = some b :=
  ⟨driven busy { raw := some 0x0500 }, _, _, _, rfl, rfl, rfl, rfl, rfl, rfl⟩
/-- The same with a command at the edge, which the host holds or withdraws. -/
theorem test_witness_RawWriteWhileBusyIsDropped_with_command :
    [true, false].map (fun h => after (step (driven busy { raw := some 0x0500, cmd := some 0x4000, hold := h }))
      (fun t => (t.inputs, t.status))) =
    [some ([.drive { cmd := some 0x4000 }], 0x6d), some ([], 0x6d)] := by decide
theorem test_witness_IdleCoreHoldsItsState :
    (nextPins State.reset.busy State.reset.inputs = ({}, []) ∧ State.reset.busy = false) ∧
    (nextPins false (driven rawless { raw := some 1 }).inputs = ({ raw := some 1 }, []) ∧ rawless.busy = false ∧
      rawless.params.hasRawPort = false) := by decide
theorem test_witness_ParametersNeverChange : ∃ s t : State, step s = .next t := ⟨State.reset, _, rfl⟩
theorem test_witness_RaiseRecordsTheFirstCauseOnly :
    State.reset.err = false ∧ (State.reset.raise .illegalOp).err = true := by decide
theorem test_witness_ReservedOpcodesRaiseIllegalOp : State.reset.busy = false := by decide
theorem test_witness_FinishedCoreRefusesAllButInit :
    finished.busy = false ∧ finished.ctx.mode = .finished ∧ finished.params.hasRawPort = true := by decide
theorem test_witness_ErrorsDoNotBlockInstructions : ∃ (i : Instr) (s t : State), exec i s = .next t :=
  ⟨.write 0x61, State.reset, _, rfl⟩
/-- The three cases: nothing clears the flags, a reset edge does, an accepted INIT does. -/
theorem test_witness_ErrorFlagsClearedOnlyByInitOrReset :
    after (step (word (State.reset.raise .illegalOp) 0x1001)) (fun t => (t.err, t.ecause)) = some (true, .illegalOp) ∧
    after (step (driven (State.reset.raise .illegalOp) { rst := true })) (fun t => (t.err, t.ecause)) =
      some (false, .none) ∧
    after (step (word (State.reset.raise .illegalOp) 0x1000)) (fun t => (t.err, t.ecause)) = some (false, .none) := by
  decide
theorem test_witness_InitConstructsAnEmptyContext : (bench 63 [(3, 0x61)]).busy = false := by decide
theorem test_witness_WriteFeedsOneByte :
    (finished.busy = false ∧ finished.ctx.mode = .finished) ∧
    ((bench 62 []).busy = false ∧ (bench 62 []).ctx.mode = .active) ∧
    (offset 0#64 ≠ 63#6 ∧ offset 62#64 ≠ 63#6 ∧ offset 64#64 ≠ 63#6) ∧
    (offset 63#64 = 63#6 ∧ offset 127#64 = 63#6 ∧ offset 0xffffffffffffffff#64 = 63#6) := by decide
theorem test_witness_RawWriteStoresOneByteOrIsRefused :
    (busy.params.hasRawPort = true ∧ busy.busy = true) ∧
    (finished.params.hasRawPort = true ∧ finished.busy = false ∧ finished.ctx.mode = .finished) ∧
    (State.reset.params.hasRawPort = true ∧ State.reset.busy = false ∧ State.reset.ctx.mode = .active) := by decide
theorem test_witness_RawWriteWithoutTheRawPortIsNoChange : rawless.params.hasRawPort = false := by decide
/-- N + OFFSET at 63, 64 and 65, with N and OFFSET at the ends of their ranges. -/
theorem test_witness_CommitCountsRawBytes :
    (rawless.busy = false ∧ rawless.params.hasRawPort = false) ∧
    (finished.busy = false ∧ finished.params.hasRawPort = true ∧ finished.ctx.mode = .finished) ∧
    ((bench 63 []).busy = false ∧ (bench 63 []).params.hasRawPort = true ∧ (bench 63 []).ctx.mode = .active) ∧
    (64 < (2#8).toNat + (offset 63#64).toNat ∧ 64 < (65#8).toNat + (offset 0#64).toNat ∧
      64 < (255#8).toNat + (offset 0#64).toNat) ∧
    ((0#8).toNat + (offset 63#64).toNat < 64 ∧ (63#8).toNat + (offset 0#64).toNat < 64) ∧
    ((1#8).toNat + (offset 63#64).toNat = 64 ∧ (64#8).toNat + (offset 0#64).toNat = 64) := by decide
theorem test_witness_RawFeedEqualsWriteFeed : (bench 62 []).busy = false ∧ (bench 62 []).ctx.mode = .active ∧
    (bench 62 []).params.hasRawPort = true ∧ [0x61#8, 0x62].length + (offset (bench 62 []).ctx.len).toNat ≤ 64 ∧
    [0x61#8].length + (offset (bench 62 []).ctx.len).toNat < 64 ∧
    ([] : List Byte).length + (offset (bench 63 []).ctx.len).toNat ≤ 64 := by decide
theorem test_witness_RawWriteIsIdempotent : (bench 2 [(0, 0x61), (63, 0x62)]).ctx.buf.wf = true := by decide
theorem test_witness_EngineStartsExactlyWhenABlockCompletes :
    ∃ s t : State, s.busy = false ∧ exec .finish s = .next t ∧ t.busy = true ∧ s.ctx.mode = .active :=
  ⟨State.reset, _, rfl, exec_finish rfl rfl, rfl, rfl⟩
theorem test_witness_CommandsChangeNothingWhileBusy :
    Instr.finish.isCommand = true ∧ (Instr.reservedOpF 0).isCommand = true ∧ busy.busy = true := by decide
theorem test_witness_FrameOfWrite : (∃ t, exec (.write 0x61) (bench 62 []) = .next t) ∧ offset 62#64 ≠ 63#6 ∧
    (bench 62 []).ctx.mode = .active ∧ 61#6 ≠ offset (bench 62 []).ctx.len ∧ busy.busy = true ∧
    finished.ctx.mode = .finished := ⟨⟨_, rfl⟩, by decide⟩
theorem test_witness_FrameOfRawWrite : (∃ t, exec (.rawWrite 62 1) State.reset = .next t) ∧ 63#6 ≠ 62#6 ∧
    State.reset.busy = false ∧ State.reset.ctx.mode = .active := ⟨⟨_, rfl⟩, by decide⟩
theorem test_witness_FrameOfInstructionsThatStoreNothing :
    (∃ t, exec (.commit 3) State.reset = .next t) ∧ (3#8).toNat + (offset 0#64).toNat ≠ 64 ∧
    (3#8).toNat + (offset 0#64).toNat ≤ 64 ∧ (∃ t, exec (.reservedOp0 0) State.reset = .next t) ∧
    (∃ t, exec (.reservedOpF 0xfff) State.reset = .next t) := ⟨⟨_, rfl⟩, by decide, by decide, ⟨_, rfl⟩, _, rfl⟩
theorem test_witness_FrameOfFinish : (∃ t, exec .finish (bench 55 [(54, 0x61)]) = .next t) ∧
    (bench 55 [(54, 0x61)]).ctx.mode = .active ∧ (bench 55 [(54, 0x61)]).busy = false ∧
    (offset 55#64).toNat < 56 ∧ (54#6).toNat < (offset 55#64).toNat := ⟨⟨_, exec_finish rfl rfl⟩, by decide⟩
theorem test_witness_ParametersChangeNoResult : (referenceParams .unroll4 true).hasRawPort = State.reset.params.hasRawPort ∧
    ∃ t, exec .finish State.reset = .next t := ⟨rfl, _, exec_finish rfl rfl⟩
theorem test_witness_FinishPadsEncodesTheLengthAndEmits :
    (finished.busy = false ∧ finished.ctx.mode = .finished) ∧
    ((bench 55 [(54, 0x61)]).busy = false ∧ (bench 55 [(54, 0x61)]).ctx.mode = .active ∧
      (bench 55 [(54, 0x61)]).ctx.buf.wf = true ∧ (offset 55#64).toNat < 56) ∧
    ((bench 56 [(55, 0x61)]).busy = false ∧ (bench 56 [(55, 0x61)]).ctx.mode = .active ∧
      (bench 56 [(55, 0x61)]).ctx.buf.wf = true ∧ 56 ≤ (offset 56#64).toNat) := by decide
theorem test_witness_RoundFunctionsBitByBit : 0 < 32 ∧ 31 < 32 := by decide
theorem test_witness_RotatorMovesEveryBit : (0 < 1 ∧ 1 < 32 ∧ 0 < 32) ∧ (0 < 31 ∧ 31 < 32) ∧ 63 < 64 := by decide
theorem test_witness_ScheduleReadsEveryWordOncePerGroup :
    (0 < 16 ∧ 15 < 16) ∧ (16 ≤ 16 ∧ 31 < 32) ∧ (32 ≤ 32 ∧ 47 < 48) ∧ (48 ≤ 48 ∧ 63 < 64) ∧ 3 < 4 := by decide
theorem test_witness_RoundRotatesTheWorkingRegisters :
    (0 < 16 ∧ 15 < 16) ∧ (16 ≤ 16 ∧ 31 < 32) ∧ (32 ≤ 32 ∧ 47 < 48) ∧ (48 ≤ 48 ∧ 63 < 64) := by decide
theorem test_witness_ControllerStepTakesItsReferenceCycles : ∃ t : State, (bench 63 []).busy = false ∧
    exec (.write 0x61) (bench 63 []) = .next t ∧ t.busy = true ∧ Instr.write 0x61 ≠ .finish :=
  ⟨_, rfl, exec_write rfl rfl _, rfl, by decide⟩
theorem test_witness_ControllerStepTakesItsReferenceCycles_commit : ∃ t : State, (bench 1 []).busy = false ∧
    exec (.commit 63) (bench 1 []) = .next t ∧ t.busy = true ∧ Instr.commit 63 ≠ .finish :=
  ⟨_, rfl, exec_commit rfl rfl rfl rfl, rfl, by decide⟩
theorem test_witness_ControllerFinishTakesItsReferenceCycles : ∃ t : State, (bench 56 []).busy = false ∧
    (bench 56 []).ctx.mode = .active ∧ exec .finish (bench 56 []) = .next t := ⟨_, rfl, rfl, exec_finish rfl rfl⟩
theorem test_witness_EveryEdgeKeepsTheControllerOnCourse :
    ending.Inv ∧ ending.ControllerOnCourse ∧ ∃ t, step ending = .next t := ⟨ending_inv, ending_onCourse, _, rfl⟩
theorem test_witness_BusyEndsOnTimeWithTheOwedRegisters :
    (word busy 0x4000).flight = some ⟨1, Context.initial.emit⟩ ∧ NoReset (word busy 0x4000).inputs ∧
    NoRawWrite (word busy 0x4000).inputs ∧ 0 ≤ 1 ∧ 1 ≤ 1 :=
  ⟨rfl, (fun p hp => by cases hp with | head => rfl | tail _ h => cases h),
    (fun p hp => by cases hp with | head => rfl | tail _ h => cases h), by decide⟩
/-- Each clause: no raw write, no raw port, an error already recorded, and a first RAW_WHILE_BUSY. -/
theorem test_witness_BusyEdgesChangeTheErrorFlagsOnlyByARawWrite :
    [busy, { busy with params := referenceParams .seq false }, busy.raise .illegalOp].map
      (fun s => after (step (driven s { raw := some 0 })) (fun t => (t.err, t.ecause))) =
      [some (true, .rawWhileBusy), some (false, .none), some (true, .illegalOp)] ∧
    after (step (word busy 0x4000)) (fun t => (t.err, t.ecause)) = some (false, .none) := by decide
theorem test_witness_PipelineAdvancesTheBlockOneStagePerEdge : ∃ t : State, (pipe 63 []).busy = false ∧
    (pipe 63 []).params.engine = .pipe64 ∧ exec (.write 0x61) (pipe 63 []) = .next t ∧ t.busy = true ∧
    Instr.write 0x61 ≠ .finish ∧ 64 ≤ 64 := ⟨_, rfl, rfl, exec_write rfl rfl _, rfl, by decide⟩
theorem test_witness_PipelineStaysBusyForEveryBlock : ∃ t : State, (pipe 56 []).busy = false ∧
    (pipe 56 []).params.engine = .pipe64 ∧ (pipe 56 []).params.Legal ∧ exec .finish (pipe 56 []) = .next t ∧
    t.busy = true ∧ NoReset (pipe 56 []).inputs ∧
    129 < 65 * (if Instr.finish = .finish ∧ 56 ≤ (offset (pipe 56 []).ctx.len).toNat then 2 else 1) :=
  ⟨_, rfl, rfl, by decide +kernel, exec_finish rfl rfl, rfl, (fun p hp => by cases hp), by decide⟩
theorem test_witness_EveryEdgeKeepsTheInvariant : ending.Inv ∧ ∃ t, step ending = .next t := ⟨ending_inv, _, rfl⟩
theorem test_witness_DigestIsFixedUntilInitOrReset : ∃ (s t : State) (p : Pins) (rest : List HostAction), s.Inv ∧
    nextPins s.busy s.inputs = (p, rest) ∧ step s = .next t ∧ s.ctx.mode = .finished :=
  ⟨finished, _, _, _, finished_inv, rfl, rfl, rfl⟩
theorem test_witness_ModeIsSetOnlyWhenFinishCompletes : ∃ s t : State, s.Inv ∧ step s = .next t ∧ s.ctx.mode = .active ∧
    t.ctx.mode = .finished := ⟨ending, _, ending_inv, rfl, rfl, rfl⟩
theorem test_witness_HashPutsTheMessageDigestOnThePort : ∃ s : State, s.busy = false ∧
    s.inputs = (AsmLine.hash [0x61, 0x62, 0x63]).expand ++ [] :=
  ⟨State.afterReset (referenceParams .seq true) (AsmLine.hash [0x61, 0x62, 0x63]).expand, rfl, by decide⟩

end Sys2Proof.Tests
end

section
/-! SUPPORT. Errors, parameters and implementation freedom (spec 00 R3, R8, R12): what raising an error records, what keeps the
parameters, and that an instruction reads nothing but what is architectural. -/

namespace Sys2Proof.Machine

/-! ### Raising an error (R12) -/

theorem State.raise_of_clear {s : State} (h : s.err = false) (c : Cause) :
    s.raise c = { s with err := true, ecause := c } := by simp [State.raise, h]

theorem State.raise_of_set {s : State} (h : s.err = true) (c : Cause) : s.raise c = s := by simp [State.raise, h]

/-- Settles O19. -/
theorem raiseRecordsTheFirstCauseOnly : Obligations.RaiseRecordsTheFirstCauseOnly :=
  fun _ c => ⟨fun h => State.raise_of_clear h c, fun h => State.raise_of_set h c⟩

/-! ### The implementation parameters (R8, R245) -/

theorem ExecCase.params {s t : State} {i : Instr} (h : ExecCase s i t) : t.params = s.params := by
  cases h with
  | same => rfl
  | error => exact State.raise_params _ _
  | init => rfl
  | write => exact State.absorb_params _ _ _ _
  | commit => exact State.absorb_params _ _ _ _
  | finish => exact State.startFinish_params _
  | rawWrite => rfl

theorem perform_params {w : Option PortWord} {s t : State} (h : perform w s = .next t) : t.params = s.params := by
  obtain ⟨t', h', hc⟩ := perform_case w s
  obtain rfl : t' = t := Host.Outcome.next.inj (h'.symm.trans h)
  rcases hc with ⟨i, hi⟩ | rfl | ⟨c, -, rfl⟩
  · exact hi.params
  · rfl
  · exact State.raise_params _ _

/-- Settles O17: the raw port, the engine and the command port each keep the parameters, and a reset edge puts them back. -/
theorem parametersNeverChange : Obligations.ParametersNeverChange := by
  intro s t ht
  obtain ⟨t', ht', hc⟩ := step_inversion s (p := (nextPins s.busy s.inputs).1) rfl
  obtain rfl : t' = t := Host.Outcome.next.inj (ht'.symm.trans ht)
  rcases hc with ⟨-, rfl⟩ | ⟨-, u, hu, hc⟩
  · exact State.afterReset_params _ _
  · have hup : u.params = s.params := (perform_params hu).trans (State.afterPins_params _ _ _)
    rcases hc with ⟨-, -, rfl⟩ | ⟨-, -, hcmd⟩
    · exact (State.engineEdge_params u).trans hup
    · exact (perform_params hcmd).trans hup

theorem referenceParams_lFinish (e : Engine) (r : Bool) (o : Fin 64) :
    (referenceParams e r).lFinish[o] = referenceLFinish e o := by simp [referenceParams]

theorem referenceParams_legal (e : Engine) (r : Bool) : (referenceParams e r).Legal := by
  refine ⟨?_, fun o => ?_, fun he => ⟨?_, fun o => ?_⟩⟩
  · exact Nat.le_add_left 1 _
  · rw [referenceParams_lFinish, referenceLFinish]; omega
  · obtain rfl : e = .pipe64 := he
    exact Nat.le_refl 65
  · obtain rfl : e = .pipe64 := he
    rw [referenceParams_lFinish, referenceLFinish, show referenceLStep .pipe64 = 65 from rfl]; omega

/-- `L_FINISH` of an engine whose reference STEP takes l cycles, in R245's form. -/
theorem referenceParams_lFinish_of_lStep {e : Engine} {l : Nat} (h : referenceLStep e = l) (r : Bool) (o : Fin 64) :
    (referenceParams e r).lFinish[o] = padLength o + 2 + l * (if 56 ≤ o.val then 2 else 1) := by
  rw [referenceParams_lFinish, referenceLFinish, h]
  split <;> split <;> omega

/-- Settles O18. -/
theorem referenceLatenciesAreR245s : Obligations.ReferenceLatenciesAreR245s := by
  refine ⟨referenceParams_legal, fun r => ⟨rfl, rfl, rfl, rfl, rfl, rfl, fun o => ⟨?_, ?_, ?_, ?_, ?_, ?_⟩⟩⟩
  · rw [referenceParams_lFinish_of_lStep (l := 65) rfl]; split <;> omega
  all_goals exact referenceParams_lFinish_of_lStep rfl r o

/-! ### What is architectural (R3, R8, R22) -/

/-- Two states that differ in nothing architectural: the same core's registers as held and as owed, the same error flags and
the same BUSY, and the raw port in both or in neither. -/
structure State.SameArch (s u : State) : Prop where
  hasRaw  : u.params.hasRawPort = s.params.hasRawPort
  ctx     : u.ctx = s.ctx
  settled : u.settled = s.settled
  err     : u.err = s.err
  ecause  : u.ecause = s.ecause
  busy    : u.busy = s.busy

/-- Two meanings that both answer a next state, with nothing architectural between them. -/
def Agree (o o' : Host.Outcome State Fault Refusal) : Prop :=
  ∃ t u, o = .next t ∧ o' = .next u ∧ t.SameArch u

theorem Agree.next {t u : State} (h : t.SameArch u) : Agree (.next t) (.next u) := ⟨t, u, rfl, rfl, h⟩

theorem Agree.ite {p : Prop} [Decidable p] {a a' b b' : Host.Outcome State Fault Refusal}
    (ha : p → Agree a a') (hb : ¬p → Agree b b') : Agree (if p then a else b) (if p then a' else b') := by
  split
  next h => exact ha h
  next h => exact hb h

section
variable {s u : State} (h : s.SameArch u)
include h

theorem State.SameArch.raise (c : Cause) : (s.raise c).SameArch (u.raise c) where
  hasRaw := by simp [h.hasRaw]
  ctx := by simp [h.ctx]
  settled := by simp [h.settled]
  err := by simp
  ecause := by simp [State.raise_ecause, h.err, h.ecause]
  busy := by simp [h.busy]

theorem State.SameArch.whenReady {o o' : Host.Outcome State Fault Refusal} (ho : s.busy = false → Agree o o') :
    Agree (whenReady s o) (whenReady u o') := by
  rw [Machine.whenReady, Machine.whenReady, h.busy]
  exact Agree.ite (fun _ => .next h) fun hb => ho (by simpa using hb)

theorem State.SameArch.withCtx (hb : s.busy = false) (c : Context) :
    State.SameArch { s with ctx := c } { u with ctx := c } where
  hasRaw := h.hasRaw
  ctx := rfl
  settled := by simp [State.settled, State.busy_eq_false.mp hb, State.busy_eq_false.mp (h.busy.trans hb)]
  err := h.err
  ecause := h.ecause
  busy := h.busy

theorem State.SameArch.initialised (hb : s.busy = false) : s.initialised.SameArch u.initialised where
  hasRaw := h.hasRaw
  ctx := rfl
  settled := (h.withCtx hb Context.initial).settled
  err := rfl
  ecause := rfl
  busy := h.busy

theorem State.SameArch.absorb (hb : s.busy = false) (f : Bool) (a r : Context) :
    (s.absorb f a r).SameArch (u.absorb f a r) where
  hasRaw := by simp [h.hasRaw]
  ctx := by simp [State.absorb_ctx]
  settled := by rw [State.absorb_settled hb, State.absorb_settled (h.busy.trans hb)]
  err := by simp [h.err]
  ecause := by simp [h.ecause]
  busy := by simp [h.busy]

theorem State.SameArch.startFinish : s.startFinish.SameArch u.startFinish where
  hasRaw := by simp [h.hasRaw]
  ctx := by simp [h.ctx]
  settled := by simp [h.ctx]
  err := by simp [h.err]
  ecause := by simp [h.ecause]
  busy := by simp

theorem execInit_agree : Agree (execInit s) (execInit u) :=
  h.whenReady fun hb => .next (h.initialised hb)

theorem execWrite_agree (b : Byte) : Agree (execWrite b s) (execWrite b u) := by
  refine h.whenReady fun hb => ?_
  rw [h.ctx]
  exact .ite (fun _ => .next (h.raise _)) fun _ => .next (h.absorb hb _ _ _)

theorem execCommit_agree (n : Byte) : Agree (execCommit n s) (execCommit n u) := by
  refine h.whenReady fun hb => ?_
  rw [h.ctx, h.hasRaw]
  exact .ite (fun _ => .next (h.raise _)) fun _ => .ite (fun _ => .next (h.raise _)) fun _ =>
    .ite (fun _ => .next (h.raise _)) fun _ => .next (h.absorb hb _ _ _)

theorem execFinish_agree : Agree (execFinish s) (execFinish u) := by
  refine h.whenReady fun _ => ?_
  rw [h.ctx]
  exact .ite (fun _ => .next (h.raise _)) fun _ => .next h.startFinish

theorem execRawWrite_agree (a : BufIndex) (d : Byte) : Agree (execRawWrite a d s) (execRawWrite a d u) := by
  rw [execRawWrite, execRawWrite, h.hasRaw, h.busy, h.ctx]
  exact .ite (fun _ => .next h) fun _ => .ite (fun _ => .next (h.raise _)) fun hb =>
    .ite (fun _ => .next (h.raise _)) fun _ => .next (h.withCtx (by simpa using hb) _)

theorem illegalOpcode_agree : Agree (illegalOpcode s) (illegalOpcode u) :=
  h.whenReady fun _ => .next (h.raise _)

/-- An instruction reads nothing but what is architectural, and P_HAS_RAW_PORT. -/
theorem exec_agree (i : Instr) : Agree (exec i s) (exec i u) := by
  cases i with
  | init => exact execInit_agree h
  | write b => exact execWrite_agree h b
  | commit n => exact execCommit_agree h n
  | finish => exact execFinish_agree h
  | rawWrite a d => exact execRawWrite_agree h a d
  | _ => exact illegalOpcode_agree h

end

/-- Settles O37: the replaced registers and parameters are not architectural, so the two meanings agree. -/
theorem parametersChangeNoResult : Obligations.ParametersChangeNoResult := by
  intro i s t p k r pl pc n w m st hp ht
  have hsame : s.SameArch { s with
      params := p, ctl := k, ret := r, padlen := pl, padcnt := pc
      rnd := n, work := w, latched := m, stages := st } := ⟨hp, rfl, rfl, rfl, rfl, rfl⟩
  obtain ⟨t', u, ht', hu, htu⟩ := exec_agree hsame i
  obtain rfl : t' = t := Host.Outcome.next.inj (ht'.symm.trans ht)
  exact ⟨u, hu, htu.settled, htu.ctx, htu.err, htu.ecause, htu.busy⟩

end Sys2Proof.Machine
end

section
/-! SUPPORT. The digest of a whole message (spec 00 R1): byte by byte, PUT keeps the block buffer at the last, partial block of
the bytes fed and ACC at the chaining value of the whole blocks before it; FINISH's padding is fed the same way. -/

namespace Sys2Proof.Machine

/-! ### Byte sequences and their blocks (R52) -/

theorem byteAt_append_left {bs : List Byte} {i : Nat} (h : i < bs.length) (cs : List Byte) :
    byteAt (bs ++ cs) i = byteAt bs i := List.getD_append _ _ _ _ h

theorem byteAt_append_right {bs : List Byte} {i : Nat} (h : bs.length ≤ i) (cs : List Byte) :
    byteAt (bs ++ cs) i = byteAt cs (i - bs.length) := List.getD_append_right _ _ _ _ h

theorem blockWords_append {bs : List Byte} {n : Nat} (h : 64 * (n + 1) ≤ bs.length) (cs : List Byte) :
    blockWords (bs ++ cs) n = blockWords bs n := by
  have hword : ∀ j < 16, blockWord (bs ++ cs) n j = blockWord bs n j := fun j hj => by
    unfold blockWord
    rw [byteAt_append_left (by omega), byteAt_append_left (by omega), byteAt_append_left (by omega),
      byteAt_append_left (by omega)]
  ext1 j hj
  simp [blockWords, hword j hj]

/-- The chaining value of whole blocks does not depend on what follows them. -/
theorem chain_append {bs : List Byte} {n : Nat} (h : 64 * n ≤ bs.length) (cs : List Byte) :
    chain (bs ++ cs) n = chain bs n := by
  induction n with
  | zero => rfl
  | succ n ih => rw [chain, chain, ih (by omega), blockWords_append h]

theorem wordByteIndex_toNat {j k : Nat} (hj : j < 16) (hk : k < 4) : (wordByteIndex j k).toNat = 4 * j + k := by
  simp only [wordByteIndex, BitVec.toNat_ofNat]; omega

/-- A buffer that holds block n of a byte sequence has its message words. -/
theorem messageWords_eq_blockWords {m : Memory} {bs : List Byte} {n : Nat}
    (h : ∀ i : BufIndex, Memory.read m i = byteAt bs (64 * n + i.toNat)) : messageWords m = blockWords bs n := by
  ext1 j hj
  have hget : (messageWords m)[j] = messageWord m j := messageWords_get m ⟨j, hj⟩
  have hbyte : ∀ k < 4, Memory.read m (wordByteIndex j k) = byteAt bs (64 * n + 4 * j + k) := fun k hk => by
    rw [h, wordByteIndex_toNat hj hk, Nat.add_assoc]
  rw [hget, messageWord, hbyte 3 (by decide), hbyte 2 (by decide), hbyte 1 (by decide), hbyte 0 (by decide)]
  simp [blockWords, blockWord]

/-! ### What a context holds of the bytes fed to it (R101, R103) -/

/-- The context after the bytes bs, from the empty context: LEN counts them modulo 2^64, BUF holds the bytes of the last,
partial block below OFFSET, and ACC has taken in every whole block. -/
structure Context.Holds (c : Context) (bs : List Byte) : Prop where
  len   : c.len = BitVec.ofNat 64 bs.length
  wf    : c.buf.wf = true
  bytes : ∀ i : BufIndex, i.toNat < bs.length % 64 → Memory.read c.buf i = byteAt bs (64 * (bs.length / 64) + i.toNat)
  acc   : c.acc = chain bs (bs.length / 64)

theorem Context.initial_holds : Context.initial.Holds [] where
  len := rfl
  wf := rfl
  bytes _ h := absurd h (Nat.not_lt_zero _)
  acc := rfl

@[simp] theorem Context.feed_nil (c : Context) : c.feed [] = c := rfl

@[simp] theorem Context.feed_cons (c : Context) (b : Byte) (bs : List Byte) : c.feed (b :: bs) = (c.put b).feed bs := rfl

section
variable {c : Context} {bs : List Byte} (h : c.Holds bs)
include h

theorem Context.Holds.offset_eq : (offset c.len).toNat = bs.length % 64 := by
  rw [toNat_offset, h.len, BitVec.toNat_ofNat]; omega

/-- PUT's store, with the byte it adds. -/
theorem Context.Holds.bytes_put (b : Byte) {i : BufIndex} (hi : i.toNat ≤ bs.length % 64) :
    Memory.read (c.put b).buf i = byteAt (bs ++ [b]) (64 * (bs.length / 64) + i.toNat) := by
  rw [Context.put_buf, Memory.read_write h.wf]
  by_cases hio : i = offset c.len
  · have hpos : 64 * (bs.length / 64) + i.toNat = bs.length := by rw [hio, h.offset_eq]; omega
    rw [if_pos hio, hpos, byteAt_append_right (Nat.le_refl _), Nat.sub_self]; rfl
  · have hlt : i.toNat < bs.length % 64 :=
      Nat.lt_of_le_of_ne hi fun e => hio (BitVec.eq_of_toNat_eq (e.trans h.offset_eq.symm))
    rw [if_neg hio, h.bytes i hlt, byteAt_append_left (by omega)]

/-- PUT steps exactly when its byte completes a block, and then on that block. -/
theorem Context.Holds.acc_put (b : Byte) : (c.put b).acc = chain (bs ++ [b]) ((bs.length + 1) / 64) := by
  by_cases hlast : bs.length % 64 = 63
  · have hblock : messageWords (c.put b).buf = blockWords (bs ++ [b]) (bs.length / 64) :=
      messageWords_eq_blockWords fun i => h.bytes_put b (by have := i.isLt; omega)
    rw [Context.put_acc_of_last (h.offset_eq.trans hlast), hblock, h.acc, ← chain_append (by omega) [b],
      show (bs.length + 1) / 64 = bs.length / 64 + 1 by omega, chain]
  · rw [Context.put_acc_of_space (by rwa [h.offset_eq]), h.acc, chain_append (by omega),
      show (bs.length + 1) / 64 = bs.length / 64 by omega]

theorem Context.Holds.put (b : Byte) : (c.put b).Holds (bs ++ [b]) where
  len := by rw [Context.put_len, h.len, List.length_append, List.length_singleton, BitVec.ofNat_add]
  wf := by rw [Context.put_buf]; exact Memory.wf_write h.wf _ _
  bytes i hi := by
    rw [List.length_append, List.length_singleton] at hi ⊢
    rw [h.bytes_put b (by omega), show (bs.length + 1) / 64 = bs.length / 64 by omega]
  acc := by rw [List.length_append, List.length_singleton]; exact h.acc_put b

end

theorem Context.Holds.feed {c : Context} {as : List Byte} (h : c.Holds as) (bs : List Byte) :
    (c.feed bs).Holds (as ++ bs) := by
  induction bs generalizing c as with
  | nil => simpa using h
  | cons b bs ih => simpa using ih (h.put b)

/-! ### FINISH (R150 to R156) -/

theorem Context.putFill_eq_feed (n : Nat) (c : Context) : c.putFill n = c.feed (List.replicate n padFill) := by
  induction n generalizing c with
  | zero => rfl
  | succ n ih => exact ih _

/-- FINISH's padding is its padding bytes, fed. -/
theorem Context.pad_eq_feed (c : Context) : c.pad = c.feed (padBytes (padLength (offset c.len).toNat)) :=
  Context.putFill_eq_feed _ _

/-- LEN counts the padding and the subtraction takes it back (R152). -/
theorem Context.pad_len_sub (c : Context) :
    c.pad.len - (BitVec.ofNat 7 (padLength (offset c.len).toNat)).setWidth 64 = c.len := by
  rw [Context.pad_len, padLength_setWidth, BitVec.add_sub_cancel]

/-- The final STEP is on the padded block with the length field in it. -/
theorem Context.finish_dig (c : Context) : c.finish.dig =
    serialise (compress c.pad.acc (messageWords (writeLengthField c.pad.buf (bitLength c.len)))) := by
  rw [Context.finish, Context.emit_dig, Context.step_acc, Context.writeLength_acc, Context.writeLength_buf,
    Context.pad_len_sub]

theorem length_padBytes {n : Nat} (h : 1 ≤ n) : (padBytes n).length = n := by
  simp only [padBytes, List.length_cons, List.length_replicate]; omega

theorem length_lengthBytes (count : Nat) : (lengthBytes count).length = 8 := by simp [lengthBytes]

theorem byteAt_lengthBytes (count : Nat) {k : Nat} (h : k < 8) :
    byteAt (lengthBytes count) k = lenByte (bitLength (BitVec.ofNat 64 count)) k := by
  simp [byteAt, lengthBytes, h]

/-- The padding ends where the length field begins (R150). -/
theorem length_append_padBytes (bs : List Byte) :
    (bs ++ padBytes (padLength (bs.length % 64))).length % 64 = 56 := by
  have hp : 1 ≤ padLength (bs.length % 64) := by unfold padLength; split <;> omega
  rw [List.length_append, length_padBytes hp]
  unfold padLength; split <;> omega

/-- With the length field written, a buffer that held the padded message holds the last block of the whole. -/
theorem Context.Holds.read_writeLength {c : Context} {bs : List Byte} (h : c.Holds bs) (hlen : bs.length % 64 = 56)
    (count : Nat) (i : BufIndex) :
    Memory.read (writeLengthField c.buf (bitLength (BitVec.ofNat 64 count))) i
      = byteAt (bs ++ lengthBytes count) (64 * (bs.length / 64) + i.toNat) := by
  have := i.isLt
  rw [writeLengthField_read h.wf]
  split
  next hi =>
    rw [byteAt_append_right (by omega), ← byteAt_lengthBytes count (by omega)]
    congr 1; omega
  next hi => rw [h.bytes i (by omega), byteAt_append_left (by omega)]

theorem Context.Holds.finish_dig {c : Context} {msg : List Byte} (h : c.Holds msg) : c.finish.dig = md5 msg := by
  set padded := msg ++ padBytes (padLength (msg.length % 64)) with hpadded
  have hpad : c.pad.Holds padded := by rw [Context.pad_eq_feed, h.offset_eq]; exact h.feed _
  have hlen : padded.length % 64 = 56 := length_append_padBytes msg
  have hblocks : (padded ++ lengthBytes msg.length).length / 64 = padded.length / 64 + 1 := by
    rw [List.length_append, length_lengthBytes]; omega
  calc c.finish.dig
      = serialise (compress (chain padded (padded.length / 64))
          (blockWords (padded ++ lengthBytes msg.length) (padded.length / 64))) := by
        rw [Context.finish_dig, h.len, hpad.acc, messageWords_eq_blockWords (hpad.read_writeLength hlen msg.length)]
    _ = md5 msg := by
        rw [md5, paddedMessage, ← hpadded, hblocks, chain, chain_append (Nat.mul_div_le padded.length 64)]

/-- Settles O58: the fed context holds the message, and FINISH feeds it the padding and steps the length in. -/
theorem streamingComputesTheMessageDigest : Obligations.StreamingComputesTheMessageDigest :=
  fun msg => (Context.initial_holds.feed msg).finish_dig

end Sys2Proof.Machine
end

section
/-! SUPPORT. What every edge keeps (spec 10 R26, R28, R32 to R35): the operations of a transaction keep a context in order, each
thing an edge can do keeps the machine invariant, and MODE rises only where BUSY falls. -/

namespace Sys2Proof.Machine

/-! ### One edge, inverted -/

/-- What the raw port did at an edge that answered u: nothing, an error, or one byte stored (R104). -/
theorem perform_raw_inv {w : Option (BitVec 14)} {s u : State} (h : perform (w.map .raw) s = .next u) :
    u = s ∨ (∃ c, c ≠ .none ∧ u = s.raise c) ∨
      ∃ a d, s.busy = false ∧ s.ctx.mode = .active ∧ u = s.rawWritten a d := by
  obtain ⟨u', hu', hc⟩ := perform_raw_case w s
  obtain rfl : u' = u := Host.Outcome.next.inj (hu'.symm.trans h)
  exact hc

/-- What the raw port leaves alone. -/
theorem perform_raw_kept {w : Option (BitVec 14)} {s u : State} (h : perform (w.map .raw) s = .next u) :
    u.ctx.mode = s.ctx.mode ∧ u.ctx.dig = s.ctx.dig ∧ u.flight = s.flight ∧ u.inputs = s.inputs := by
  obtain rfl | ⟨c, -, rfl⟩ | ⟨a, d, -, -, rfl⟩ := perform_raw_inv h
  · exact ⟨rfl, rfl, rfl, rfl⟩
  · simp
  · exact ⟨rfl, rfl, rfl, rfl⟩

theorem perform_inv {w : Option PortWord} {s t : State} (h : perform w s = .next t) :
    (∃ i, ExecCase s i t) ∨ t = s ∨ ∃ c, c ≠ .none ∧ t = s.raise c := by
  obtain ⟨t', ht', hc⟩ := perform_case w s
  obtain rfl : t' = t := Host.Outcome.next.inj (ht'.symm.trans h)
  exact hc

/-- Inversion of an edge that answered t: a reset; or the raw port's effect, then the engine's edge or the command's effect. -/
theorem step_inv {s t : State} (h : step s = .next t) :
    (∃ l, t = State.afterReset s.params l) ∨
      ∃ p rest u, perform (p.raw.map .raw) (s.afterPins p rest) = .next u ∧
        ((s.busy = true ∧ t = u.engineEdge) ∨
         (s.busy = false ∧ perform (p.cmd.map .command) u = .next t)) := by
  obtain ⟨t', ht', hc⟩ := step_inversion s (p := (nextPins s.busy s.inputs).1) rfl
  obtain rfl : t' = t := Host.Outcome.next.inj (ht'.symm.trans h)
  obtain ⟨-, ht⟩ | ⟨-, u, hu, ⟨hb, -, ht⟩ | ⟨hb, -, ht⟩⟩ := hc
  · exact .inl ⟨_, ht⟩
  · exact .inr ⟨_, _, u, hu, .inl ⟨hb, ht⟩⟩
  · exact .inr ⟨_, _, u, hu, .inr ⟨hb, ht⟩⟩

/-! ### The engine's edge, by the cycles left (R34) -/

theorem State.engineEdge_idle {s : State} (h : s.flight = none) : s.engineEdge = s := by
  unfold State.engineEdge; rw [h]

theorem State.engineEdge_last {s : State} {r : Context} (h : s.flight = some ⟨0, r⟩) :
    s.engineEdge = s.engineComplete r := by
  unfold State.engineEdge; rw [h]

theorem State.engineEdge_more {s : State} {n : Nat} {r : Context} (h : s.flight = some ⟨n + 1, r⟩) :
    s.engineEdge = { s.engineProgress with flight := some ⟨n, r⟩ } := by
  unfold State.engineEdge; rw [h]

/-- A working controller keeps working while more BUSY cycles follow (log 6). -/
theorem State.engineProgress_ctl {s : State} (h : s.ctl ≠ .idle) : s.engineProgress.ctl ≠ .idle := by
  unfold State.engineProgress
  split
  · exact h
  next hne => exact hne

theorem State.engineProgress_flags (s : State) :
    s.engineProgress.err = s.err ∧ s.engineProgress.ecause = s.ecause := by
  unfold State.engineProgress; split <;> simp

theorem State.engineProgress_inputs (s : State) : s.engineProgress.inputs = s.inputs := by
  unfold State.engineProgress; split <;> simp

theorem State.engineEdge_inputs (s : State) : s.engineEdge.inputs = s.inputs := by
  match hf : s.flight with
  | none => rw [State.engineEdge_idle hf]
  | some ⟨0, r⟩ => rw [State.engineEdge_last hf]; exact State.controllerEdge_inputs s
  | some ⟨n + 1, r⟩ => rw [State.engineEdge_more hf]; exact State.engineProgress_inputs s

/-! ### Contexts in order (R26, R28) -/

/-- What keeps the buffer canonical, DIG and MODE keeps a context in order. -/
theorem Context.Ok.of_kept {c c' : Context} (h : c.Ok) (hw : c.buf.wf = true → c'.buf.wf = true)
    (hd : c'.dig = c.dig) (hm : c'.mode = c.mode) : c'.Ok :=
  ⟨hw h.1, fun ha => hd.trans (h.2 (hm.symm.trans ha))⟩

theorem Context.initial_ok : Context.initial.Ok := ⟨rfl, fun _ => rfl⟩

section
variable {c : Context} (h : c.Ok)
include h

theorem Context.Ok.append (b : Byte) : (c.append b).Ok :=
  h.of_kept (fun hw => by rw [Context.append_buf]; exact Memory.wf_write hw _ _) (by simp) (by simp)

theorem Context.Ok.put (b : Byte) : (c.put b).Ok :=
  h.of_kept (fun hw => by rw [Context.put_buf]; exact Memory.wf_write hw _ _) (Context.put_dig _ _) (Context.put_mode _ _)

theorem Context.Ok.count (n : Byte) : (c.count n).Ok := h.of_kept (by simp) (by simp) (by simp)

theorem Context.Ok.commit (n : Byte) : (c.commit n).Ok :=
  h.of_kept (by simp [Context.commit_buf]) (Context.commit_dig _ _) (Context.commit_mode _ _)

/-- FINISH leaves DIG written and the context FINISHED, so that only the buffer is to be kept. -/
theorem Context.Ok.finish : c.finish.Ok := by
  have hpad : c.pad.buf.wf = true := Context.putFill_wf _ _ (h.put padMarker).1
  refine ⟨?_, fun ha => ?_⟩
  · rw [Context.finish, Context.emit_buf, Context.step_buf, Context.writeLength_buf]
    exact writeLengthField_wf hpad _
  · rw [Context.finish, Context.emit_mode] at ha; cases ha

end

/-! ### The machine invariant, operation by operation -/

theorem State.Inv.of_idle {s : State} (hb : s.busy = false) (hctx : s.ctx.Ok) (hctl : s.ctl = .idle)
    (herr : s.err = true ↔ s.ecause ≠ .none) : s.Inv where
  ctxOk := hctx
  owedOk := by rwa [State.settled_of_not_busy hb]
  busyCtl := by simp [hctl, hb]
  busyMode h := by rw [hb] at h; cases h
  errCause := herr

theorem State.Inv.of_busy {s : State} (hb : s.busy = true) (hctx : s.ctx.Ok) (howed : s.settled.Ok) (hctl : s.ctl ≠ .idle)
    (hmode : s.ctx.mode = .active) (herr : s.err = true ↔ s.ecause ≠ .none) : s.Inv where
  ctxOk := hctx
  owedOk := howed
  busyCtl := by simp [hctl, hb]
  busyMode _ := hmode
  errCause := herr

theorem State.afterReset_inv (p : Params) (l : List HostAction) : (State.afterReset p l).Inv :=
  .of_idle rfl Context.initial_ok rfl (by simp)

section
variable {s : State} (h : s.Inv)
include h

theorem State.Inv.idle_ctl (hb : s.busy = false) : s.ctl = .idle :=
  Decidable.byContradiction fun hne => by rw [h.busyCtl.mp hne] at hb; cases hb

theorem State.Inv.afterPins (p : Pins) (rest : List HostAction) : (s.afterPins p rest).Inv :=
  ⟨h.ctxOk, h.owedOk, h.busyCtl, h.busyMode, h.errCause⟩

theorem State.Inv.raise {c : Cause} (hc : c ≠ .none) : (s.raise c).Inv where
  ctxOk := by simpa using h.ctxOk
  owedOk := by simpa using h.owedOk
  busyCtl := by simpa using h.busyCtl
  busyMode := by simpa using h.busyMode
  errCause := by
    rw [State.raise_ecause]
    split
    next he => simpa using h.errCause.mp he
    · simpa using hc

theorem State.Inv.initialised (hb : s.busy = false) : s.initialised.Inv :=
  .of_idle hb Context.initial_ok (h.idle_ctl hb) (by simp [State.initialised])

theorem State.Inv.rawWritten (hb : s.busy = false) (a : BufIndex) (d : Byte) : (s.rawWritten a d).Inv :=
  .of_idle hb (h.ctxOk.of_kept (fun hw => Memory.wf_write hw a d) rfl rfl) (h.idle_ctl hb) h.errCause

/-- The common part of WRITE and COMMIT: idle with the result, or busy with the result owed. -/
theorem State.Inv.absorb (hb : s.busy = false) (fills : Bool) {accepted result : Context} (ha : accepted.Ok)
    (hr : result.Ok) (hm : accepted.mode = .active) : (s.absorb fills accepted result).Inv := by
  have herr : (s.absorb fills accepted result).err = true ↔ (s.absorb fills accepted result).ecause ≠ .none := by
    simpa using h.errCause
  cases fills with
  | false =>
    exact .of_idle (by simpa using hb) (by rwa [State.absorb_ctx]) (by rw [State.absorb_ctl]; exact h.idle_ctl hb) herr
  | true =>
    exact .of_busy (by simp) (by rwa [State.absorb_ctx]) (by rwa [State.absorb_settled hb]) (by simp [State.absorb_ctl])
      (by rw [State.absorb_ctx]; exact hm) herr

theorem State.Inv.startFinish (hm : s.ctx.mode = .active) : s.startFinish.Inv :=
  .of_busy rfl (by simpa using h.ctxOk) (by simpa using h.ctxOk.finish) (by simp) (by simpa using hm)
    (by simpa using h.errCause)

theorem ExecCase.keeps_inv {i : Instr} {t : State} (hc : ExecCase s i t) : t.Inv := by
  cases hc with
  | same => exact h
  | error _ c hc => exact h.raise hc
  | init hb => exact h.initialised hb
  | write b hb hm => exact h.absorb hb _ (h.ctxOk.append b) (h.ctxOk.put b) (by simpa using hm)
  | commit n hb hr hm => exact h.absorb hb _ (h.ctxOk.count n) (h.ctxOk.commit n) (by simpa using hm)
  | finish hb hm => exact h.startFinish hm
  | rawWrite a d hb => exact h.rawWritten hb a d

theorem State.Inv.perform {w : Option PortWord} {t : State} (ht : perform w s = .next t) : t.Inv := by
  obtain ⟨i, hc⟩ | rfl | ⟨c, hc, rfl⟩ := perform_inv ht
  · exact hc.keeps_inv h
  · exact h
  · exact h.raise hc

/-- The last BUSY cycle takes over the owed registers; an earlier one keeps DIG and MODE, and the controller working. -/
theorem State.Inv.engineEdge : s.engineEdge.Inv := by
  match hf : s.flight with
  | none => rwa [State.engineEdge_idle hf]
  | some ⟨0, r⟩ =>
    have howed : r.Ok := by simpa [State.settled_of_flight hf] using h.owedOk
    rw [State.engineEdge_last hf]
    exact .of_idle rfl howed rfl (by simpa [State.engineComplete] using h.errCause)
  | some ⟨n + 1, r⟩ =>
    have hb : s.busy = true := State.busy_eq_true.mpr ⟨_, hf⟩
    have howed : r.Ok := by simpa [State.settled_of_flight hf] using h.owedOk
    obtain ⟨hmode, hdig, hwf⟩ := State.engineProgress_ctx s
    obtain ⟨herr, hcause⟩ := State.engineProgress_flags s
    rw [State.engineEdge_more hf]
    exact .of_busy rfl (h.ctxOk.of_kept hwf hdig hmode) howed (State.engineProgress_ctl (h.busyCtl.mpr hb))
      (hmode.trans (h.busyMode hb)) (by simpa [herr, hcause] using h.errCause)

end

/-- Settles O54: reset meets the invariant, and the raw port, the engine and the command port each keep it. -/
theorem everyEdgeKeepsTheInvariant : Obligations.EveryEdgeKeepsTheInvariant := by
  intro s t h ht
  obtain ⟨l, rfl⟩ | ⟨p, rest, u, hu, hc⟩ := step_inv ht
  · exact State.afterReset_inv _ l
  · have hui : u.Inv := (h.afterPins p rest).perform hu
    obtain ⟨-, rfl⟩ | ⟨-, hcmd⟩ := hc
    · exact hui.engineEdge
    · exact hui.perform hcmd

/-! ### Where MODE rises (R33) -/

theorem ExecCase.mode_active {s t : State} {i : Instr} (h : ExecCase s i t) (hm : s.ctx.mode = .active) :
    t.ctx.mode = .active := by
  cases h with
  | same => exact hm
  | error => simpa using hm
  | init => rfl
  | write b => rw [State.written, State.absorb_ctx]; split <;> simp [Context.put_mode, hm]
  | commit n => rw [State.committed, State.absorb_ctx]; split <;> simp [Context.commit_mode, hm]
  | finish => simpa using hm
  | rawWrite => exact hm

theorem perform_mode_active {w : Option PortWord} {s t : State} (h : perform w s = .next t)
    (hm : s.ctx.mode = .active) : t.ctx.mode = .active := by
  obtain ⟨i, hc⟩ | rfl | ⟨c, -, rfl⟩ := perform_inv h
  · exact hc.mode_active hm
  · exact hm
  · simpa using hm

/-- An engine's edge changes MODE only as it ends BUSY, and then to the one that was owed. -/
theorem State.engineEdge_mode (s : State) :
    s.engineEdge.ctx.mode = s.ctx.mode ∨ s.engineEdge.busy = false ∧ s.engineEdge.ctx = s.settled := by
  match hf : s.flight with
  | none => exact .inl (by rw [State.engineEdge_idle hf])
  | some ⟨0, r⟩ => exact .inr (by rw [State.engineEdge_last hf, State.settled_of_flight hf]; exact ⟨rfl, rfl⟩)
  | some ⟨n + 1, r⟩ => exact .inl (by rw [State.engineEdge_more hf]; exact (State.engineProgress_ctx s).1)

/-- Settles O57: reset and the two ports leave an ACTIVE core ACTIVE, so it was the engine's edge that ended a FINISH. -/
theorem modeIsSetOnlyWhenFinishCompletes : Obligations.ModeIsSetOnlyWhenFinishCompletes := by
  intro s t _ ht hs hfin
  obtain ⟨l, rfl⟩ | ⟨p, rest, u, hu, hc⟩ := step_inv ht
  · cases hfin
  · obtain ⟨hmode, -, hflight, -⟩ := perform_raw_kept hu
    have hua : u.ctx.mode = .active := hmode.trans hs
    obtain ⟨hb, rfl⟩ | ⟨-, hcmd⟩ := hc
    · obtain hkept | ⟨hfall, howed⟩ := State.engineEdge_mode u
      · rw [hkept, hua] at hfin; cases hfin
      · have hsettled : u.settled = s.settled := by
          obtain ⟨f, hf⟩ := State.busy_eq_true.mp hb
          rw [State.settled_of_flight hf, State.settled_of_flight (hflight.trans hf)]
        exact ⟨hb, hfall, by rw [← hsettled, ← howed]; exact hfin⟩
    · rw [perform_mode_active hcmd hua] at hfin; cases hfin

/-! ### Where BUSY rises (R38) -/

/-- Settles O31: from left to right by the cases of a meaning, from right to left by the equations of the three commands. -/
theorem engineStartsExactlyWhenABlockCompletes : Obligations.EngineStartsExactlyWhenABlockCompletes := by
  intro i s t hb ht
  constructor
  · intro htb
    cases exec_inv ht with
    | same => rw [hb] at htb; cases htb
    | error => rw [State.raise_busy, hb] at htb; cases htb
    | init => exact absurd (hb.symm.trans htb) (by decide)
    | write b _ hm =>
      rw [State.written, State.absorb_busy, hb, Bool.or_false] at htb
      exact ⟨hm, .inl ⟨b, rfl, (byteFills_iff_offset _).mp htb⟩⟩
    | commit n _ hr hm =>
      rw [State.committed, State.absorb_busy, hb, Bool.or_false] at htb
      exact ⟨hm, .inr (.inl ⟨n, rfl, hr, (commitFills_iff _ _).mp htb⟩)⟩
    | finish _ hm => exact ⟨hm, .inr (.inr rfl)⟩
    | rawWrite => exact absurd (hb.symm.trans htb) (by decide)
  · rintro ⟨hm, ⟨b, rfl, hlast⟩ | ⟨n, rfl, hr, hlast⟩ | rfl⟩
    · obtain rfl : s.written b = t := Host.Outcome.next.inj ((exec_write hb hm b).symm.trans ht)
      simp [State.written, (byteFills_iff_offset _).mpr hlast]
    · have hfits : commitOverflows n s.ctx.len = false := by
        rw [Bool.eq_false_iff, ne_eq, commitOverflows_iff]; omega
      obtain rfl : s.committed n = t := Host.Outcome.next.inj ((exec_commit hb hr hm hfits).symm.trans ht)
      simp [State.committed, (commitFills_iff _ _).mpr hlast]
    · obtain rfl : s.startFinish = t := Host.Outcome.next.inj ((exec_finish hb hm).symm.trans ht)
      exact State.startFinish_busy s

end Sys2Proof.Machine
end

section
/-! SUPPORT. The whole BUSY period (spec 10 R34, 70 R240, R246): what the host's queue carries on to the next edge, one edge with
cycles left, and the run to the edge at which BUSY falls. -/

namespace Sys2Proof.Machine

/-! ### The host's queue (log 2) -/

/-- What holds of all pins in the queue, and of pins that drive a command at most, holds of the next edge's pins and of all that
are left. -/
theorem nextPins_forall {P : Pins → Prop} (hP : ∀ c, P { cmd := c }) (busy : Bool) {l : List HostAction}
    (h : ∀ p, HostAction.drive p ∈ l → P p) :
    P (nextPins busy l).1 ∧ ∀ p, HostAction.drive p ∈ (nextPins busy l).2 → P p := by
  induction l with
  | nil => exact ⟨hP none, h⟩
  | cons a rest ih =>
    have hrest : ∀ p, HostAction.drive p ∈ rest → P p := fun p hp => h p (List.mem_cons_of_mem _ hp)
    cases a with
    | drive p => exact ⟨h p List.mem_cons_self, hrest⟩
    | wait =>
      rw [nextPins]
      split
      · exact ⟨hP none, h⟩
      · exact ih hrest

/-- The queue after an edge: as before it, with at most one held command added (R71). -/
theorem heldOver_append_forall {P : Pins → Prop} (hP : ∀ c, P { cmd := c }) (p : Pins) (accepted : Bool)
    {rest : List HostAction} (h : ∀ q, HostAction.drive q ∈ rest → P q) :
    ∀ q, HostAction.drive q ∈ p.heldOver accepted ++ rest → P q := by
  intro q hq
  unfold Pins.heldOver at hq
  split at hq
  · obtain heq | hq := List.mem_cons.mp hq
    · cases heq; exact hP _
    · exact h q hq
  · exact h q hq

/-! ### One edge while BUSY = 1, without a reset -/

/-- What an edge, or a run of edges, with BUSY = 1 and no reset leaves alone (R240). -/
structure State.BusyKeeps (s t : State) : Prop where
  noReset : NoReset s.inputs → NoReset t.inputs
  done    : t.done = s.done
  digest  : t.digest = s.digest
  quiet   : NoRawWrite s.inputs → NoRawWrite t.inputs ∧ t.err = s.err ∧ t.ecause = s.ecause

theorem State.BusyKeeps.refl (s : State) : s.BusyKeeps s := ⟨id, rfl, rfl, fun h => ⟨h, rfl, rfl⟩⟩

theorem State.BusyKeeps.trans {s t u : State} (h : s.BusyKeeps t) (h' : t.BusyKeeps u) : s.BusyKeeps u where
  noReset hn := h'.noReset (h.noReset hn)
  done := h'.done.trans h.done
  digest := h'.digest.trans h.digest
  quiet hq := by
    obtain ⟨hqt, he, hc⟩ := h.quiet hq
    obtain ⟨hqu, he', hc'⟩ := h'.quiet hqt
    exact ⟨hqu, he'.trans he, hc'.trans hc⟩

/-- With BUSY = 1 and no reset an edge is the engine's, on a state u that the raw port can have changed in the error flags
only, and in those only if the host drives it. -/
theorem step_of_busy {s : State} (hb : s.busy = true) (hn : NoReset s.inputs) :
    ∃ u, step s = .next u.engineEdge ∧ u.flight = s.flight ∧ s.BusyKeeps u := by
  obtain ⟨hrst, hrest⟩ := nextPins_forall (P := fun p => p.rst = false) (fun _ => rfl) s.busy hn
  obtain ⟨t, ht, ⟨hr, -⟩ | ⟨-, u, hu, ⟨-, -, rfl⟩ | ⟨hidle, -⟩⟩⟩ :=
    step_inversion s (p := (nextPins s.busy s.inputs).1) rfl
  · rw [hrst] at hr; cases hr
  · obtain ⟨hmode, hdig, hflight, hinputs⟩ := perform_raw_kept hu
    refine ⟨u, ht, hflight, fun _ => ?_, by simp [State.done, hmode], by simp [State.digest, hdig], fun hq => ?_⟩
    · rw [hinputs, State.afterPins_inputs]
      exact heldOver_append_forall (P := fun p => p.rst = false) (fun _ => rfl) _ _ hrest
    · obtain ⟨hraw, hquiet⟩ := nextPins_forall (P := fun p => p.raw = none) (fun _ => rfl) s.busy hq
      rw [hraw] at hu
      obtain rfl := Host.Outcome.next.inj hu
      refine ⟨?_, rfl, rfl⟩
      rw [State.afterPins_inputs]
      exact heldOver_append_forall (P := fun p => p.raw = none) (fun _ => rfl) _ _ hquiet
  · rw [hb] at hidle; cases hidle

theorem State.engineEdge_busyKeeps {s : State} {n : Nat} {r : Context} (hf : s.flight = some ⟨n + 1, r⟩) :
    s.BusyKeeps s.engineEdge := by
  obtain ⟨herr, hcause⟩ := State.engineEdge_flags s
  obtain ⟨hmode, hdig, -⟩ := State.engineProgress_ctx s
  refine ⟨?_, ?_, ?_, fun hq => ⟨?_, herr, hcause⟩⟩
  · rw [State.engineEdge_inputs]; exact id
  · rw [State.engineEdge_more hf]; simp [State.done, hmode]
  · rw [State.engineEdge_more hf]; simp [State.digest, hdig]
  · rwa [State.engineEdge_inputs]

theorem step_of_busy_more {s : State} {n : Nat} {r : Context} (hf : s.flight = some ⟨n + 1, r⟩) (hn : NoReset s.inputs) :
    ∃ t, step s = .next t ∧ t.flight = some ⟨n, r⟩ ∧ s.BusyKeeps t := by
  obtain ⟨u, hu, hflight, hkeeps⟩ := step_of_busy (State.busy_eq_true.mpr ⟨_, hf⟩) hn
  have huf : u.flight = some ⟨n + 1, r⟩ := hflight.trans hf
  exact ⟨_, hu, by rw [State.engineEdge_more huf], hkeeps.trans (State.engineEdge_busyKeeps huf)⟩

/-- The last BUSY cycle: the owed registers appear, and without a raw write the error flags are as they were (R240). -/
theorem step_of_busy_last {s : State} {r : Context} (hf : s.flight = some ⟨0, r⟩) (hn : NoReset s.inputs) :
    ∃ t, step s = .next t ∧ t.busy = false ∧ t.ctx = r ∧
      (NoRawWrite s.inputs → t.err = s.err ∧ t.ecause = s.ecause) := by
  obtain ⟨u, hu, hflight, hkeeps⟩ := step_of_busy (State.busy_eq_true.mpr ⟨_, hf⟩) hn
  obtain ⟨herr, hcause⟩ := State.engineEdge_flags u
  have hlast : u.engineEdge = u.engineComplete r := State.engineEdge_last (hflight.trans hf)
  refine ⟨_, hu, by rw [hlast]; rfl, by rw [hlast]; rfl, fun hq => ?_⟩
  obtain ⟨-, he, hc⟩ := hkeeps.quiet hq
  exact ⟨herr.trans he, hcause.trans hc⟩

/-! ### The run (R34, R246) -/

theorem coreRun_succ {M : Host.Core} {s t : M.State} (h : M.step s = .next t) (k : Nat) : M.run (k + 1) s = M.run k t := by
  rw [Host.Core.run, h]

theorem run_succ_of_step {s t : State} (h : step s = .next t) (k : Nat) :
    Host.Core.run Sys2Proof.core (k + 1) s = Host.Core.run Sys2Proof.core k t :=
  coreRun_succ (M := Sys2Proof.core) h k

theorem run_of_busy {k n : Nat} {s : State} {r : Context} (hf : s.flight = some ⟨n + k, r⟩) (hn : NoReset s.inputs) :
    ∃ t, Host.Core.run Sys2Proof.core k s = .next t ∧ t.flight = some ⟨n, r⟩ ∧ s.BusyKeeps t := by
  induction k generalizing s with
  | zero => exact ⟨s, rfl, hf, .refl s⟩
  | succ k ih =>
    obtain ⟨u, hu, huf, hsu⟩ := step_of_busy_more hf hn
    obtain ⟨t, ht, htf, hut⟩ := ih huf (hsu.noReset hn)
    exact ⟨t, (run_succ_of_step hu k).trans ht, htf, hsu.trans hut⟩

theorem run_to_last {n : Nat} {s : State} {r : Context} (hf : s.flight = some ⟨n, r⟩) (hn : NoReset s.inputs) :
    ∃ t, Host.Core.run Sys2Proof.core (n + 1) s = .next t ∧ t.busy = false ∧ t.ctx = r ∧
      (NoRawWrite s.inputs → t.err = s.err ∧ t.ecause = s.ecause) := by
  induction n generalizing s with
  | zero =>
    obtain ⟨t, ht, hlast⟩ := step_of_busy_last hf hn
    exact ⟨t, run_succ_of_step ht 0, hlast⟩
  | succ n ih =>
    obtain ⟨u, hu, huf, hsu⟩ := step_of_busy_more hf hn
    obtain ⟨t, ht, hidle, hctx, hflags⟩ := ih huf (hsu.noReset hn)
    refine ⟨t, (run_succ_of_step hu _).trans ht, hidle, hctx, fun hq => ?_⟩
    obtain ⟨hqu, he, hc⟩ := hsu.quiet hq
    obtain ⟨he', hc'⟩ := hflags hqu
    exact ⟨he'.trans he, hc'.trans hc⟩

/-- Settles O50: k edges leave n - k cycles and what BUSY keeps; the edge after the last cycle left presents the result. -/
theorem busyEndsOnTimeWithTheOwedRegisters : Obligations.BusyEndsOnTimeWithTheOwedRegisters := by
  intro s f hf hn
  refine ⟨fun k hk => ?_, run_to_last hf hn⟩
  have hleft : s.flight = some ⟨f.left - k + k, f.result⟩ := by rw [Nat.sub_add_cancel hk]; exact hf
  obtain ⟨t, ht, htf, hkeeps⟩ := run_of_busy hleft hn
  refine ⟨t, ht, State.busy_eq_true.mpr ⟨_, htf⟩, by rw [State.settled_of_flight htf], hkeeps.done, hkeeps.digest,
    fun hq => (hkeeps.quiet hq).2⟩

end Sys2Proof.Machine
end

section
/-! SUPPORT. The block buffer's accesses (spec 20 R52, R58): what each refusal of a raw write answers, that a raw write
repeats without effect, and the value of a little-endian message word. -/

namespace Sys2Proof.Machine

/-! ### A raw write that stores nothing (R76, R104) -/

theorem exec_rawWrite_absent {s : State} (hr : s.params.hasRawPort = false) (a : BufIndex) (d : Byte) :
    exec (.rawWrite a d) s = .next s := by
  show execRawWrite a d s = _
  rw [execRawWrite, if_pos hr]

theorem exec_rawWrite_busy {s : State} (hr : s.params.hasRawPort = true) (hb : s.busy = true) (a : BufIndex) (d : Byte) :
    exec (.rawWrite a d) s = .next (s.raise .rawWhileBusy) := by
  show execRawWrite a d s = _
  rw [execRawWrite, if_neg (by simp [hr]), if_pos hb]

theorem exec_rawWrite_finished {s : State} (hr : s.params.hasRawPort = true) (hb : s.busy = false)
    (hm : s.ctx.mode = .finished) (a : BufIndex) (d : Byte) :
    exec (.rawWrite a d) s = .next (s.raise .rawAfterFinish) := by
  show execRawWrite a d s = _
  rw [execRawWrite, if_neg (by simp [hr]), if_neg (by simp [hb]), if_pos hm]

/-! ### A raw write repeated (R58) -/

/-- The first error stays recorded, so raising again changes nothing (R12). -/
@[simp] theorem State.raise_raise (s : State) (c c' : Cause) : (s.raise c).raise c' = s.raise c :=
  State.raise_of_set (State.raise_err s c) c'

/-- A second write to an index decides its byte; on a canonical buffer that is equality of the lists. -/
theorem Memory.write_write {m : Memory} (h : m.wf = true) (i : BufIndex) (v w : Byte) :
    Memory.write (Memory.write m i v) i w = Memory.write m i w := by
  have hv := Memory.wf_write h i v
  refine Memory.ext (Memory.wf_write hv i w) (Memory.wf_write h i w) fun j => ?_
  rw [Memory.read_write hv, Memory.read_write h, Memory.read_write h]
  split <;> rfl

theorem State.rawWritten_rawWritten {s : State} (h : s.ctx.buf.wf = true) (a : BufIndex) (d e : Byte) :
    (s.rawWritten a d).rawWritten a e = s.rawWritten a e := by
  simp [State.rawWritten, Memory.write_write h]

/-- The state a raw write leaves is one that the same raw write keeps: it meets the same port, BUSY and MODE again. -/
theorem exec_rawWrite_again {s t : State} {a : BufIndex} {d : Byte} (hwf : s.ctx.buf.wf = true)
    (h : exec (.rawWrite a d) s = .next t) : exec (.rawWrite a d) t = .next t := by
  cases hr : s.params.hasRawPort with
  | false =>
    obtain rfl : s = t := Host.Outcome.next.inj ((exec_rawWrite_absent hr a d).symm.trans h)
    exact h
  | true =>
    cases hb : s.busy with
    | true =>
      obtain rfl := Host.Outcome.next.inj ((exec_rawWrite_busy hr hb a d).symm.trans h)
      rw [exec_rawWrite_busy (by simpa using hr) (by simpa using hb), State.raise_raise]
    | false =>
      cases hm : s.ctx.mode with
      | finished =>
        obtain rfl := Host.Outcome.next.inj ((exec_rawWrite_finished hr hb hm a d).symm.trans h)
        rw [exec_rawWrite_finished (by simpa using hr) (by simpa using hb) (by simpa using hm), State.raise_raise]
      | active =>
        obtain rfl := Host.Outcome.next.inj ((exec_rawWrite hb hr hm a d).symm.trans h)
        rw [exec_rawWrite (s := s.rawWritten a d) hb hr hm, State.rawWritten_rawWritten hwf]

/-- Settles O30: the first raw write answers a state that the second one keeps. -/
theorem rawWriteIsIdempotent : Obligations.RawWriteIsIdempotent := by
  intro a d s hwf
  obtain ⟨t, ht, -⟩ := exec_case (.rawWrite a d) s
  have hagain : exec (.rawWrite a d) t = .next t := exec_rawWrite_again hwf ht
  simp only [execAll, ht, andThen_next, hagain]

/-! ### Little-endian words (R52) -/

theorem toNat_append_eq_add {n k : Nat} (x : BitVec n) (y : BitVec k) : (x ++ y).toNat = 2 ^ k * x.toNat + y.toNat := by
  rw [BitVec.toNat_append, ← Nat.shiftLeft_add_eq_or_of_lt y.isLt, Nat.shiftLeft_eq, Nat.mul_comm]

theorem toNat_messageWord (m : Memory) (j : Nat) : (messageWord m j).toNat =
    (m.read (wordByteIndex j 0)).toNat + 2 ^ 8 * (m.read (wordByteIndex j 1)).toNat +
    2 ^ 16 * (m.read (wordByteIndex j 2)).toNat + 2 ^ 24 * (m.read (wordByteIndex j 3)).toNat := by
  simp only [messageWord, toNat_append_eq_add]
  omega

/-- Settles O46. -/
theorem messageWordsAreLittleEndian : Obligations.MessageWordsAreLittleEndian := by
  intro m j
  rw [messageWords_get]
  exact toNat_messageWord m j

end Sys2Proof.Machine
end

section
/-! SUPPORT. The encoding (spec 30 R73 to R80): the fields of a command word and of a bundle, what the decoder reads from each
operation code, and that it and the encoder are inverse to each other on the instructions of the core. -/

namespace Sys2Proof.Machine

/-! ### The fields of a command word (R73) -/

theorem opOf_append (op : BitVec 4) (low : BitVec 12) : opOf (op ++ low) = op := BitVec.extractLsb'_append_eq_left

theorem lowOf_append (op : BitVec 4) (low : BitVec 12) : lowOf (op ++ low) = low := BitVec.extractLsb'_append_eq_right

theorem opOf_append_lowOf (c : BitVec 16) : opOf c ++ lowOf c = c := BitVec.extractLsb'_append_extractLsb' (w := 4)

theorem rsvOf_append_argLow (op : BitVec 4) (arg : Byte) : rsvOf (op ++ argLow arg) = 0#4 :=
  (BitVec.extractLsb'_append_eq_of_add_le (by decide)).trans BitVec.extractLsb'_append_eq_left

theorem argOf_append_argLow (op : BitVec 4) (arg : Byte) : argOf (op ++ argLow arg) = arg :=
  (BitVec.extractLsb'_append_eq_of_add_le (by decide)).trans BitVec.extractLsb'_append_eq_right

theorem argLow_argOf {c : BitVec 16} (h : rsvOf c = 0#4) : argLow (argOf c) = lowOf c := by
  rw [argLow, ← h]
  exact BitVec.extractLsb'_append_extractLsb'_eq_extractLsb' rfl

theorem toNat_opOf (c : BitVec 16) : (opOf c).toNat = c.toNat / 4096 := by
  have := c.isLt
  simp only [opOf, BitVec.extractLsb'_toNat, Nat.shiftRight_eq_div_pow]; omega

theorem toNat_rsvOf (c : BitVec 16) : (rsvOf c).toNat = c.toNat / 256 % 16 := by
  simp [rsvOf, BitVec.extractLsb'_toNat, Nat.shiftRight_eq_div_pow]

theorem toNat_argOf (c : BitVec 16) : (argOf c).toNat = c.toNat % 256 := by
  simp [argOf, BitVec.extractLsb'_toNat]

theorem rsvOf_eq_zero_iff (c : BitVec 16) : rsvOf c = 0#4 ↔ c.toNat / 256 % 16 = 0 := by
  rw [← toNat_rsvOf, ← BitVec.toNat_inj]; rfl

theorem argOf_eq_zero_iff (c : BitVec 16) : argOf c = 0#8 ↔ c.toNat % 256 = 0 := by
  rw [← toNat_argOf, ← BitVec.toNat_inj]; rfl

/-- A word is its operation code n above its low bits. -/
theorem commandWord_lowOf {c : BitVec 16} {n : Nat} (h : (opOf c).toNat = n) :
    commandWord (BitVec.ofNat 4 n) (lowOf c) = .command c := by
  rw [commandWord, ← h, BitVec.ofNat_toNat, BitVec.setWidth_eq, opOf_append_lowOf]

/-! ### The decoder, by operation code (R79) -/

theorem decodeBare_reserved {c : BitVec 16} (h : rsvOf c ≠ 0#4 ∨ argOf c ≠ 0#8) (i : Instr) :
    decodeBare c i = .error .reservedBits := by
  unfold decodeBare
  split
  · rfl
  next hr => rw [if_pos (h.resolve_left hr)]

theorem decodeBare_clear {c : BitVec 16} (hr : rsvOf c = 0#4) (ha : argOf c = 0#8) (i : Instr) :
    decodeBare c i = .ok i := by
  rw [decodeBare, if_neg (not_not_intro hr), if_neg (not_not_intro ha)]

theorem decodeArg_reserved {c : BitVec 16} (h : rsvOf c ≠ 0#4) (i : Byte → Instr) :
    decodeArg c i = .error .reservedBits := if_pos h

theorem decodeArg_clear {c : BitVec 16} (h : rsvOf c = 0#4) (i : Byte → Instr) : decodeArg c i = .ok (i (argOf c)) :=
  if_neg (not_not_intro h)

section
variable {hasRaw : Bool} {c : BitVec 16}

theorem decodeCommand_init (h : (opOf c).toNat = 1) : decodeCommand hasRaw c = decodeBare c .init := by
  simp only [decodeCommand, h]

theorem decodeCommand_write (h : (opOf c).toNat = 2) : decodeCommand hasRaw c = decodeArg c .write := by
  simp only [decodeCommand, h]

theorem decodeCommand_commit (h : (opOf c).toNat = 3) :
    decodeCommand hasRaw c = if hasRaw then decodeArg c .commit else .error .illegalOp := by
  simp only [decodeCommand, h]

theorem decodeCommand_finish (h : (opOf c).toNat = 4) : decodeCommand hasRaw c = decodeBare c .finish := by
  simp only [decodeCommand, h]

end

/-- The row of a reserved operation code (R80): it is on every core, its encoding keeps all twelve low bits, and it means
ILLEGAL_OP. -/
structure ReservedRow (i : Instr) (c : BitVec 16) : Prop where
  word        : encode i = .command c
  onEveryCore : ∀ hasRaw, i.wellFormed hasRaw = true
  meaning     : ∀ s, exec i s = illegalOpcode s

theorem decodeCommand_reserved {c : BitVec 16} (h1 : (opOf c).toNat ≠ 1) (h2 : (opOf c).toNat ≠ 2)
    (h3 : (opOf c).toNat ≠ 3) (h4 : (opOf c).toNat ≠ 4) (hasRaw : Bool) :
    ∃ i, decodeCommand hasRaw c = .ok i ∧ ReservedRow i c := by
  unfold decodeCommand
  split
  case h_2 h => exact absurd h h1
  case h_3 h => exact absurd h h2
  case h_4 h => exact absurd h h3
  case h_5 h => exact absurd h h4
  case h_16 =>
    have hF : (opOf c).toNat = 15 := by
      have := (opOf c).isLt
      simp only [imp_false] at *
      omega
    exact ⟨_, rfl, commandWord_lowOf hF, fun _ => rfl, fun _ => rfl⟩
  all_goals next h => exact ⟨_, rfl, commandWord_lowOf h, fun _ => rfl, fun _ => rfl⟩

/-! ### The encoder and the decoder are inverse to each other -/

theorem decode_commandWord_bare {hasRaw : Bool} {op : BitVec 4} {i : Instr}
    (h : ∀ c, (opOf c).toNat = op.toNat → decodeCommand hasRaw c = decodeBare c i) :
    decode hasRaw (commandWord op 0#12) = .ok i :=
  (h _ (by rw [opOf_append])).trans
    (decodeBare_clear (rsvOf_append_argLow op 0#8) (argOf_append_argLow op 0#8) i)

theorem decode_commandWord_arg {hasRaw : Bool} {op : BitVec 4} {i : Byte → Instr}
    (h : ∀ c, (opOf c).toNat = op.toNat → decodeCommand hasRaw c = decodeArg c i) (arg : Byte) :
    decode hasRaw (commandWord op (argLow arg)) = .ok (i arg) := by
  have hdec := (h _ (by rw [opOf_append])).trans (decodeArg_clear (rsvOf_append_argLow op arg) i)
  rw [argOf_append_argLow] at hdec
  exact hdec

/-- Settles O7, row by row: a bare word and a one-operand word have clear reserved fields, a reserved operation code keeps its
low bits, and a bundle its index and byte. -/
theorem decodeOfEncodeIsTheInstruction : Obligations.DecodeOfEncodeIsTheInstruction := by
  intro hasRaw i hwf
  cases i with
  | init => exact decode_commandWord_bare fun _ h => decodeCommand_init h
  | write b => exact decode_commandWord_arg (op := 0x2#4) (fun _ h => decodeCommand_write h) b
  | commit n =>
    obtain rfl : hasRaw = true := hwf
    exact decode_commandWord_arg (op := 0x3#4) (fun _ h => decodeCommand_commit h) n
  | finish => exact decode_commandWord_bare fun _ h => decodeCommand_finish h
  | rawWrite a d =>
    obtain rfl : hasRaw = true := hwf
    simp only [decode, encode, decodeRaw, if_true, BitVec.extractLsb'_append_eq_left, BitVec.extractLsb'_append_eq_right]
  | _ low => simp [decode, encode, commandWord, decodeCommand, opOf_append, lowOf_append]

theorem encode_of_decodeBare {c : BitVec 16} {i j : Instr} {n : Nat} (hop : (opOf c).toNat = n)
    (hi : encode i = commandWord (BitVec.ofNat 4 n) 0#12) (h : decodeBare c i = .ok j) : j = i ∧ encode j = .command c := by
  by_cases hclear : rsvOf c = 0#4 ∧ argOf c = 0#8
  · obtain ⟨hr, ha⟩ := hclear
    obtain rfl := Except.ok.inj ((decodeBare_clear hr ha i).symm.trans h)
    have hlow : lowOf c = 0#12 := by rw [← argLow_argOf hr, ha]; rfl
    exact ⟨rfl, by rw [hi, ← commandWord_lowOf hop, hlow]⟩
  · rw [decodeBare_reserved (by tauto)] at h; cases h

theorem encode_of_decodeArg {c : BitVec 16} {i : Byte → Instr} {j : Instr} {n : Nat} (hop : (opOf c).toNat = n)
    (hi : ∀ b, encode (i b) = commandWord (BitVec.ofNat 4 n) (argLow b)) (h : decodeArg c i = .ok j) :
    j = i (argOf c) ∧ encode j = .command c := by
  by_cases hr : rsvOf c = 0#4
  · obtain rfl := Except.ok.inj ((decodeArg_clear hr i).symm.trans h)
    exact ⟨rfl, by rw [hi, ← commandWord_lowOf hop, argLow_argOf hr]⟩
  · rw [decodeArg_reserved hr] at h; cases h

theorem encode_of_decodeCommand {hasRaw : Bool} {c : BitVec 16} {i : Instr} (h : decodeCommand hasRaw c = .ok i) :
    encode i = .command c ∧ i.wellFormed hasRaw = true := by
  by_cases h1 : (opOf c).toNat = 1
  · obtain ⟨rfl, hc⟩ := encode_of_decodeBare h1 rfl ((decodeCommand_init h1).symm.trans h)
    exact ⟨hc, rfl⟩
  by_cases h2 : (opOf c).toNat = 2
  · obtain ⟨rfl, hc⟩ := encode_of_decodeArg h2 (fun _ => rfl) ((decodeCommand_write h2).symm.trans h)
    exact ⟨hc, rfl⟩
  by_cases h3 : (opOf c).toNat = 3
  · have hcommit := (decodeCommand_commit h3).symm.trans h
    cases hasRaw with
    | false => cases hcommit
    | true =>
      obtain ⟨rfl, hc⟩ := encode_of_decodeArg h3 (fun _ => rfl) hcommit
      exact ⟨hc, rfl⟩
  by_cases h4 : (opOf c).toNat = 4
  · obtain ⟨rfl, hc⟩ := encode_of_decodeBare h4 rfl ((decodeCommand_finish h4).symm.trans h)
    exact ⟨hc, rfl⟩
  obtain ⟨j, hj, hrow⟩ := decodeCommand_reserved h1 h2 h3 h4 hasRaw
  obtain rfl := Except.ok.inj (hj.symm.trans h)
  exact ⟨hrow.word, hrow.onEveryCore hasRaw⟩

theorem encode_of_decodeRaw {hasRaw : Bool} {b : BitVec 14} {i : Instr} (h : decodeRaw hasRaw b = .ok i) :
    encode i = .raw b ∧ i.wellFormed hasRaw = true := by
  cases hasRaw with
  | false => cases h
  | true =>
    obtain rfl := Except.ok.inj h
    exact ⟨congrArg PortWord.raw (BitVec.extractLsb'_append_extractLsb' (w := 6)), rfl⟩

/-- Settles O8, port by port. -/
theorem encodeOfDecodeIsTheWord : Obligations.EncodeOfDecodeIsTheWord := by
  intro hasRaw w i h
  cases w with
  | command c => exact encode_of_decodeCommand h
  | raw b => exact encode_of_decodeRaw h

/-- Settles O6: each of the seven words is the encoding of its instruction, on the core with the raw port. -/
theorem specWordsDecodeToTheirRows : Obligations.SpecWordsDecodeToTheirRows :=
  have h := decodeOfEncodeIsTheInstruction true
  ⟨h .init rfl, h (.write 0x61) rfl, h (.commit 3) rfl, h .finish rfl, h (.rawWrite 5 0x7a) rfl,
    h (.reservedOp0 0x100) rfl, h (.reservedOpF 0xfff) rfl⟩

end Sys2Proof.Machine
end

section
/-! SUPPORT. The two output ports (spec 30 R74, R75): each bit of the status word, each byte of the digest port, and the
accumulator's words on it (20 R54). -/

namespace Sys2Proof.Machine

/-- Settles O3. -/
theorem statusWordShowsTheFlags : Obligations.StatusWordShowsTheFlags := by
  intro s
  refine ⟨?_, ?_, ?_, ?_, ?_, ?_⟩
  case refine_4 =>
    rw [State.status, BitVec.extractLsb'_append_eq_of_le (by decide), BitVec.extractLsb'_append_eq_of_le (by decide),
      BitVec.extractLsb'_append_eq_of_le (by decide)]
    exact BitVec.extractLsb'_append_eq_right
  all_goals
    simp only [State.status, BitVec.getLsbD_append]
    simp [State.done]

theorem digestBits_byte (d : Vector Byte 16) {i : Nat} (hi : i < 16) : (digestBits d).extractLsb' (8 * i) 8 = d[i] := by
  interval_cases i
  all_goals
    simp (disch := decide) only [digestBits, BitVec.extractLsb'_append_eq_of_add_le, BitVec.extractLsb'_append_eq_of_le]
    exact BitVec.extractLsb'_eq_self

/-- Four bytes in a row are a little-endian word. -/
theorem extractLsb'_bytes {w : Nat} (x : BitVec w) (a : Nat) :
    x.extractLsb' (a + 24) 8 ++ x.extractLsb' (a + 16) 8 ++ x.extractLsb' (a + 8) 8 ++ x.extractLsb' a 8
      = x.extractLsb' a 32 := by
  rw [BitVec.extractLsb'_append_extractLsb'_eq_extractLsb' (show a + 24 = a + 16 + 8 from rfl),
    BitVec.extractLsb'_append_extractLsb'_eq_extractLsb' (show a + 16 = a + 8 + 8 from rfl),
    BitVec.extractLsb'_append_extractLsb'_eq_extractLsb' rfl]

theorem wordBytes (v : Word) : wordByte v 3 ++ wordByte v 2 ++ wordByte v 1 ++ wordByte v 0 = v :=
  (extractLsb'_bytes v 0).trans BitVec.extractLsb'_eq_self

/-- Word j of the digest port is v when DIG holds v's bytes from index 4j on. -/
theorem digestBits_word {d : Vector Byte 16} {v : Word} {j : Nat} (hj : 4 * j + 3 < 16)
    (h : ∀ k, (hk : k < 4) → d[4 * j + k] = wordByte v k) : (digestBits d).extractLsb' (32 * j) 32 = v := by
  have hbyte : ∀ k, (hk : k < 4) → (digestBits d).extractLsb' (32 * j + 8 * k) 8 = wordByte v k := fun k hk => by
    rw [show 32 * j + 8 * k = 8 * (4 * j + k) by omega, digestBits_byte d (by omega), h k hk]
  have hlow : (digestBits d).extractLsb' (32 * j) 8 = wordByte v 0 := hbyte 0 (by decide)
  rw [← extractLsb'_bytes, hbyte 3 (by decide), hbyte 2 (by decide), hbyte 1 (by decide), hlow, wordBytes]

/-- Settles O4. -/
theorem digestPortIsLittleEndian : Obligations.DigestPortIsLittleEndian := by
  refine ⟨fun s i => digestBits_byte s.ctx.dig i.isLt, fun q => ⟨?_, ?_, ?_, ?_⟩⟩
  · exact digestBits_word (j := 0) (by decide) fun k hk => by interval_cases k <;> rfl
  · exact digestBits_word (j := 1) (by decide) fun k hk => by interval_cases k <;> rfl
  · exact digestBits_word (j := 2) (by decide) fun k hk => by interval_cases k <;> rfl
  · exact digestBits_word (j := 3) (by decide) fun k hk => by interval_cases k <;> rfl

end Sys2Proof.Machine
end

section
/-! SUPPORT. The command port at one edge (spec 30 R71, R79, R80): what an instruction means where it is not accepted or does
not exist, the edge of an idle and of a busy core without a raw write, and the decode checks in the order of R79. -/

namespace Sys2Proof.Machine

/-! ### Instructions without effect but an error (R71, R76, R80) -/

/-- Settles O32. -/
theorem commandsChangeNothingWhileBusy : Obligations.CommandsChangeNothingWhileBusy := by
  intro i s hcmd hb
  cases i with
  | rawWrite a d => cases hcmd
  | _ => exact whenReady_busy hb _

/-- Settles O20: the twelve codes have one meaning. -/
theorem reservedOpcodesRaiseIllegalOp : Obligations.ReservedOpcodesRaiseIllegalOp := by
  intro low s hb
  have h : illegalOpcode s = .next (s.raise .illegalOp) := whenReady_idle hb _
  exact ⟨_, rfl, h, h, h, h, h, h, h, h, h, h, h, h⟩

/-- Settles O26. -/
theorem rawWriteWithoutTheRawPortIsNoChange : Obligations.RawWriteWithoutTheRawPortIsNoChange :=
  fun a d _ hr => exec_rawWrite_absent hr a d

/-! ### One port's word -/

theorem perform_ok {s : State} {w : PortWord} {i : Instr} (h : decode s.params.hasRawPort w = .ok i) :
    perform (some w) s = exec i s := by
  simp only [perform, h]

theorem perform_error {s : State} {w : PortWord} {r : Reject} (h : decode s.params.hasRawPort w = .error r) :
    perform (some w) s = .next (s.rejected r) := by
  simp only [perform, h]

/-! ### One edge without a raw write (R71) -/

section
variable {s : State} {p : Pins} {rest : List HostAction}

/-- A core that accepts the command holds nothing over. -/
theorem State.afterPins_of_idle (hb : s.busy = false) (hrst : p.rst = false) (rest : List HostAction) :
    s.afterPins p rest = { s with inputs := rest } := by
  simp [State.afterPins, Pins.heldOver, State.cmdReady, hb, hrst]

variable (hpins : nextPins s.busy s.inputs = (p, rest)) (hrst : p.rst = false)
include hpins hrst

theorem step_of_idle (hb : s.busy = false) (hraw : p.raw = none) :
    step s = perform (p.cmd.map .command) { s with inputs := rest } := by
  obtain ⟨t, ht, ⟨hr, -⟩ | ⟨-, u, hu, ⟨hbusy, -⟩ | ⟨-, -, hcmd⟩⟩⟩ := step_inversion s hpins
  · rw [hrst] at hr; cases hr
  · rw [hb] at hbusy; cases hbusy
  · rw [hraw, State.afterPins_of_idle hb hrst] at hu
    obtain rfl := Host.Outcome.next.inj hu
    exact ht.trans hcmd.symm

theorem step_of_busy_quiet (hb : s.busy = true) (hraw : p.raw = none) :
    step s = .next (s.afterPins p rest).engineEdge := by
  obtain ⟨t, ht, ⟨hr, -⟩ | ⟨-, u, hu, ⟨-, -, rfl⟩ | ⟨hidle, -⟩⟩⟩ := step_inversion s hpins
  · rw [hrst] at hr; cases hr
  · rw [hraw] at hu
    obtain rfl := Host.Outcome.next.inj hu
    exact ht
  · rw [hb] at hidle; cases hidle

theorem step_of_idle_raw (hb : s.busy = false) (hcmd : p.cmd = none) :
    step s = perform (p.raw.map .raw) { s with inputs := rest } := by
  obtain ⟨t, ht, ⟨hr, -⟩ | ⟨-, u, hu, ⟨hbusy, -⟩ | ⟨-, -, hu'⟩⟩⟩ := step_inversion s hpins
  · rw [hrst] at hr; cases hr
  · rw [hb] at hbusy; cases hbusy
  · rw [hcmd] at hu'
    obtain rfl := Host.Outcome.next.inj hu'
    rw [← State.afterPins_of_idle hb hrst, hu, ht]

end

/-- Settles O13: the command is held over into the queue, and the engine takes its edge. -/
theorem commandIsHeldWhileBusy : Obligations.CommandIsHeldWhileBusy := by
  intro s p rest c hpins hb hrst hraw hcmd
  rw [step_of_busy_quiet hpins hrst hb hraw]
  simp [State.afterPins, Pins.heldOver, State.cmdReady, hb, hcmd]

/-- Settles O10: an idle core runs the word of the port that has one. -/
theorem stepRunsThePresentedInstruction : Obligations.StepRunsThePresentedInstruction := by
  intro s p rest i hpins hb hrst
  refine ⟨fun c hraw hcmd hdec => ?_, fun b hcmd hraw hdec => ?_⟩
  · rw [step_of_idle hpins hrst hb hraw, hcmd]
    exact perform_ok hdec
  · rw [step_of_idle_raw hpins hrst hb hcmd, hraw]
    exact perform_ok hdec

/-! ### The order of the decode checks (R79) -/

section
variable {s : State} {c : BitVec 16}

theorem perform_reservedBits (h : decodeCommand s.params.hasRawPort c = .error .reservedBits) :
    perform (some (.command c)) s = .next (s.raise .reservedBits) :=
  perform_error (w := .command c) (r := .reservedBits) h

theorem perform_bare {i : Instr} (h : decodeCommand s.params.hasRawPort c = decodeBare c i) :
    perform (some (.command c)) s = if c.toNat / 256 % 16 ≠ 0 then .next (s.raise .reservedBits)
      else if c.toNat % 256 ≠ 0 then .next (s.raise .reservedBits) else exec i s := by
  split
  next hr =>
    rw [ne_eq, ← rsvOf_eq_zero_iff] at hr
    exact perform_reservedBits (h.trans (decodeBare_reserved (.inl hr) i))
  next hr =>
    rw [not_not, ← rsvOf_eq_zero_iff] at hr
    split
    next ha =>
      rw [ne_eq, ← argOf_eq_zero_iff] at ha
      exact perform_reservedBits (h.trans (decodeBare_reserved (.inr ha) i))
    next ha =>
      rw [not_not, ← argOf_eq_zero_iff] at ha
      exact perform_ok (h.trans (decodeBare_clear hr ha i))

theorem perform_arg {i : Byte → Instr} (h : decodeCommand s.params.hasRawPort c = decodeArg c i) :
    perform (some (.command c)) s = if c.toNat / 256 % 16 ≠ 0 then .next (s.raise .reservedBits)
      else exec (i (BitVec.ofNat 8 (c.toNat % 256))) s := by
  rw [← toNat_argOf, BitVec.ofNat_toNat, BitVec.setWidth_eq]
  split
  next hr =>
    rw [ne_eq, ← rsvOf_eq_zero_iff] at hr
    exact perform_reservedBits (h.trans (decodeArg_reserved hr i))
  next hr =>
    rw [not_not, ← rsvOf_eq_zero_iff] at hr
    exact perform_ok (h.trans (decodeArg_clear hr i))

theorem perform_reserved (hb : s.busy = false) (h1 : (opOf c).toNat ≠ 1) (h2 : (opOf c).toNat ≠ 2)
    (h3 : (opOf c).toNat ≠ 3) (h4 : (opOf c).toNat ≠ 4) :
    perform (some (.command c)) s = .next (s.raise .illegalOp) := by
  obtain ⟨i, hi, hrow⟩ := decodeCommand_reserved h1 h2 h3 h4 s.params.hasRawPort
  have hdec : decode s.params.hasRawPort (.command c) = .ok i := hi
  rw [perform_ok hdec, hrow.meaning]
  exact whenReady_idle hb _

end

/-- Settles O9, operation code by operation code. -/
theorem acceptedWordsFollowTheDecodeOrder : Obligations.AcceptedWordsFollowTheDecodeOrder := by
  intro s p rest c hpins hb hrst hraw hcmd
  rw [step_of_idle hpins hrst hb hraw, hcmd, Option.map_some]
  by_cases h1 : c.toNat / 4096 = 1
  · rw [perform_bare (decodeCommand_init ((toNat_opOf c).trans h1))]
    simp [h1]
  by_cases h2 : c.toNat / 4096 = 2
  · rw [perform_arg (decodeCommand_write ((toNat_opOf c).trans h2))]
    simp [h2]
  by_cases h3 : c.toNat / 4096 = 3
  · have hdec := decodeCommand_commit (hasRaw := s.params.hasRawPort) ((toNat_opOf c).trans h3)
    cases hr : s.params.hasRawPort with
    | false =>
      rw [hr] at hdec
      rw [perform_error (s := { s with inputs := rest }) (r := .illegalOp) (by rw [hr]; exact hdec)]
      simp [h3, State.rejected]
    | true =>
      rw [hr] at hdec
      rw [perform_arg (s := { s with inputs := rest }) (i := .commit) (by rw [hr]; exact hdec)]
      simp [h3]
  by_cases h4 : c.toNat / 4096 = 4
  · rw [perform_bare (decodeCommand_finish ((toNat_opOf c).trans h4))]
    simp [h4]
  · rw [if_pos ⟨h1, h2, h3, h4⟩]
    rw [← toNat_opOf] at h1 h2 h3 h4
    exact perform_reserved hb h1 h2 h3 h4

end Sys2Proof.Machine
end

section
/-! SUPPORT. The pseudo-instruction HASH (spec 30 R83): a queue whose head waits for BUSY = 0 stands still until the owed
registers appear, an idle core takes the command at its head, and so the message is fed, finished and waited for. -/

namespace Sys2Proof.Machine

/-- Some number of rising edges leads from s to t. -/
abbrev Runs : State → State → Prop := Relation.ReflTransGen fun s t => step s = .next t

theorem Runs.exists_run {s t : State} (h : Runs s t) : ∃ n, Host.Core.run Sys2Proof.core n s = .next t := by
  induction h using Relation.ReflTransGen.head_induction_on with
  | refl => exact ⟨0, rfl⟩
  | head hstep _ ih =>
    obtain ⟨n, hn⟩ := ih
    exact ⟨n + 1, (run_succ_of_step hstep n).trans hn⟩

/-! ### While BUSY = 1 (R71) -/

/-- The head of the queue is WAIT or a command that the host holds until it is accepted. -/
inductive WaitsForReady : List HostAction → Prop where
  | wait (rest) : WaitsForReady (.wait :: rest)
  | command (c rest) : WaitsForReady (.drive { cmd := some c } :: rest)

/-- Such a head drives no reset and no raw write, and it stands in front of the queue again after an edge with BUSY = 1. -/
theorem WaitsForReady.nextPins_busy {l : List HostAction} (h : WaitsForReady l) : ∃ p rest,
    nextPins true l = (p, rest) ∧ p.rst = false ∧ p.raw = none ∧ p.heldOver false ++ rest = l := by
  cases h with
  | wait rest => exact ⟨{}, .wait :: rest, rfl, rfl, rfl, rfl⟩
  | command c rest => exact ⟨{ cmd := some c }, rest, rfl, rfl, rfl, rfl⟩

theorem step_of_busy_waiting {s : State} (hb : s.busy = true) (hw : WaitsForReady s.inputs) :
    step s = .next s.engineEdge := by
  obtain ⟨p, rest, hpins, hrst, hraw, hqueue⟩ := hw.nextPins_busy
  have hsame : s.afterPins p rest = s := by
    rw [State.afterPins, show s.cmdReady p.rst = false by simp [State.cmdReady, hb], hqueue]
  rw [step_of_busy_quiet (by rw [hb]; exact hpins) hrst hb hraw, hsame]

/-- t is s once BUSY has fallen: it shows the registers s held or owed (R240), with ERR and the queue as they were. -/
structure State.ReadyAs (s t : State) : Prop where
  idle   : t.busy = false
  ctx    : t.ctx = s.settled
  err    : t.err = s.err
  inputs : t.inputs = s.inputs

theorem runs_until_ready_of_flight {n : Nat} {s : State} {r : Context} (hf : s.flight = some ⟨n, r⟩)
    (hw : WaitsForReady s.inputs) : ∃ t, Runs s t ∧ s.ReadyAs t := by
  induction n generalizing s with
  | zero =>
    have hstep := step_of_busy_waiting (State.busy_eq_true.mpr ⟨_, hf⟩) hw
    refine ⟨_, .single hstep, ?_, ?_, (State.engineEdge_flags s).1, State.engineEdge_inputs s⟩
    · rw [State.engineEdge_last hf]; rfl
    · rw [State.engineEdge_last hf, State.settled_of_flight hf]; rfl
  | succ n ih =>
    have hstep := step_of_busy_waiting (State.busy_eq_true.mpr ⟨_, hf⟩) hw
    have hf' : s.engineEdge.flight = some ⟨n, r⟩ := by rw [State.engineEdge_more hf]
    have hw' : WaitsForReady s.engineEdge.inputs := by rwa [State.engineEdge_inputs]
    obtain ⟨t, hrun, hready⟩ := ih hf' hw'
    refine ⟨t, .head hstep hrun, hready.idle, ?_, hready.err.trans (State.engineEdge_flags s).1,
      hready.inputs.trans (State.engineEdge_inputs s)⟩
    rw [hready.ctx, State.settled_of_flight hf', State.settled_of_flight hf]

theorem runs_until_ready {s : State} (hw : WaitsForReady s.inputs) : ∃ t, Runs s t ∧ s.ReadyAs t := by
  cases hf : s.flight with
  | none => exact ⟨s, .refl, State.busy_eq_false.mpr hf, (State.settled_of_idle hf).symm, rfl, rfl⟩
  | some f => exact runs_until_ready_of_flight hf hw

/-! ### The commands of HASH (R82, R83) -/

/-- An idle core runs a presented command that it has. -/
theorem step_present {s : State} {i : Instr} {c : BitVec 16} {rest : List HostAction} (hb : s.busy = false)
    (hin : s.inputs = present i :: rest) (hc : encode i = .command c) (hwf : i.wellFormed s.params.hasRawPort = true) :
    step s = exec i { s with inputs := rest } := by
  have hpins : nextPins s.busy s.inputs = ({ cmd := some c }, rest) := by rw [hin, present, hc]; rfl
  refine (stepRunsThePresentedInstruction s _ rest i hpins hb rfl).1 c rfl rfl ?_
  rw [← hc]
  exact decodeOfEncodeIsTheInstruction _ i hwf

/-- The three commands of HASH, accepted: what they leave held or owed, ERR, and the rest of the queue. -/
structure State.Accepts (s : State) (result : Context) (err : Bool) (rest : List HostAction) (t : State) : Prop where
  step    : step s = .next t
  settled : t.settled = result
  err     : t.err = err
  inputs  : t.inputs = rest

section
variable {s : State} {rest : List HostAction} (hb : s.busy = false)
include hb

theorem accepts_init (hin : s.inputs = present .init :: rest) : ∃ t, s.Accepts Context.initial false rest t :=
  ⟨_, (step_present hb hin rfl rfl).trans (exec_init hb), State.settled_of_not_busy hb, rfl, rfl⟩

theorem accepts_write (hm : s.ctx.mode = .active) {b : Byte} (hin : s.inputs = present (.write b) :: rest) :
    ∃ t, s.Accepts (s.ctx.put b) s.err rest t := by
  have hb' : State.busy { s with inputs := rest } = false := hb
  exact ⟨_, (step_present hb hin rfl rfl).trans (exec_write hb' hm b), State.absorb_settled hb' _ _ _,
    State.absorb_err _ _ _ _, State.absorb_inputs _ _ _ _⟩

theorem accepts_finish (hm : s.ctx.mode = .active) (hin : s.inputs = present .finish :: rest) :
    ∃ t, s.Accepts s.ctx.finish s.err rest t :=
  ⟨_, (step_present hb hin rfl rfl).trans (exec_finish hb hm), rfl, rfl, rfl⟩

end

/-! ### The program (R83) -/

theorem Context.feed_mode (c : Context) (bs : List Byte) : (c.feed bs).mode = c.mode := by
  induction bs generalizing c with
  | nil => rfl
  | cons b bs ih => rw [Context.feed_cons, ih, Context.put_mode]

/-- FEED leaves its bytes fed, to the registers held or owed (R83, R103). -/
theorem runs_feed {s : State} {bs : List Byte} {rest : List HostAction} (hm : s.settled.mode = .active)
    (hin : s.inputs = feedActions bs ++ rest) :
    ∃ t, Runs s t ∧ t.settled = s.settled.feed bs ∧ t.err = s.err ∧ t.inputs = rest := by
  induction bs generalizing s with
  | nil => exact ⟨s, .refl, rfl, rfl, hin⟩
  | cons b bs ih =>
    obtain ⟨u, hsu, hready⟩ := runs_until_ready (s := s) (by rw [hin]; exact .command _ _)
    obtain ⟨v, hv⟩ := accepts_write hready.idle (by rwa [hready.ctx]) (hready.inputs.trans hin)
    have hput : v.settled = s.settled.put b := by rw [hv.settled, hready.ctx]
    obtain ⟨t, hvt, hfed, herr, hrest⟩ := ih (s := v) (by rw [hput, Context.put_mode, hm]) hv.inputs
    exact ⟨t, hsu.trans (.head hv.step hvt), by rw [hfed, hput, Context.feed_cons],
      herr.trans (hv.err.trans hready.err), hrest⟩

/-- FINISH and WAIT end with the finished registers on the ports (R83, R150). -/
theorem runs_finish_wait {s : State} {rest : List HostAction} (hm : s.settled.mode = .active)
    (hin : s.inputs = present .finish :: .wait :: rest) :
    ∃ t, Runs s t ∧ t.busy = false ∧ t.ctx = s.settled.finish ∧ t.err = s.err ∧ t.inputs = .wait :: rest := by
  obtain ⟨u, hsu, hready⟩ := runs_until_ready (s := s) (by rw [hin]; exact .command _ _)
  obtain ⟨v, hv⟩ := accepts_finish hready.idle (by rwa [hready.ctx]) (hready.inputs.trans hin)
  obtain ⟨t, hvt, hdone⟩ := runs_until_ready (s := v) (by rw [hv.inputs]; exact .wait rest)
  exact ⟨t, hsu.trans (.head hv.step hvt), hdone.idle, by rw [hdone.ctx, hv.settled, hready.ctx],
    hdone.err.trans (hv.err.trans hready.err), hdone.inputs.trans hv.inputs⟩

/-- Settles O59: INIT leaves the empty context and no error, FEED the message fed to it, FINISH and WAIT its digest. -/
theorem hashPutsTheMessageDigestOnThePort : Obligations.HashPutsTheMessageDigestOnThePort := by
  intro s msg rest hb hin
  obtain ⟨v, hv⟩ := accepts_init (rest := feedActions msg ++ present .finish :: .wait :: rest) hb
    (by simp [hin, AsmLine.expand])
  obtain ⟨u, hvu, hfed, huerr, hurest⟩ := runs_feed (by rw [hv.settled]; rfl) hv.inputs
  rw [hv.settled] at hfed
  obtain ⟨t, hut, hidle, hctx, hterr, htrest⟩ := runs_finish_wait (by rw [hfed, Context.feed_mode]; rfl) hurest
  obtain ⟨n, hn⟩ := Runs.exists_run (.head hv.step (hvu.trans hut))
  have hdone : t.done = true := by rw [State.done, hctx, Context.finish, Context.emit_mode]; rfl
  have herr : t.err = false := hterr.trans (huerr.trans hv.err)
  refine ⟨n, t, hn, by simp [State.digestValid, hdone, hidle, herr], ?_, htrest⟩
  rw [State.digest, hctx, hfed, streamingComputesTheMessageDigest]

end Sys2Proof.Machine
end

section
/-! SUPPORT. The feed's commands (spec 41): one equation per case of WRITE and COMMIT, their words, the order of the two ports
at one edge, and what INIT, WRITE, RAW_WRITE and COMMIT do. -/

namespace Sys2Proof.Machine

/-! ### One equation per case (R102, R106) -/

theorem byteFills_eq_false {len : Len} (h : offset len ≠ 63#6) : byteFills len = false := by
  rwa [Bool.eq_false_iff, ne_eq, byteFills_iff_offset]

theorem commitFills_eq_false {n : Byte} {len : Len} (h : n.toNat + (offset len).toNat ≠ 64) :
    commitFills n len = false := by
  rwa [Bool.eq_false_iff, ne_eq, commitFills_iff]

theorem commitOverflows_eq_false {n : Byte} {len : Len} (h : n.toNat + (offset len).toNat ≤ 64) :
    commitOverflows n len = false := by
  rw [Bool.eq_false_iff, ne_eq, commitOverflows_iff]; omega

theorem State.written_of_space {s : State} (h : offset s.ctx.len ≠ 63#6) (b : Byte) :
    s.written b = { s with ctx := s.ctx.append b } := by
  rw [State.written, byteFills_eq_false h, State.absorb_idle, Context.put_of_space h]

theorem State.written_of_last {s : State} (h : offset s.ctx.len = 63#6) (b : Byte) :
    s.written b = s.absorb true (s.ctx.append b) (s.ctx.append b).step := by
  rw [State.written, (byteFills_iff_offset _).mpr h, Context.put_of_last h]

/-- The state whose LEN has counted n bytes more (R106). -/
def State.counted (s : State) (n : Byte) : State := { s with ctx := s.ctx.count n }

@[simp] theorem State.counted_ctx (s : State) (n : Byte) : (s.counted n).ctx = s.ctx.count n := rfl

theorem State.committed_of_space {s : State} {n : Byte} (h : n.toNat + (offset s.ctx.len).toNat ≠ 64) :
    s.committed n = s.counted n := by
  have hfills := commitFills_eq_false h
  rw [State.committed, hfills, State.absorb_idle, Context.commit_of_space hfills, State.counted]

theorem State.committed_of_last {s : State} {n : Byte} (h : n.toNat + (offset s.ctx.len).toNat = 64) :
    s.committed n = s.absorb true (s.ctx.count n) (s.ctx.count n).step := by
  have hfills := (commitFills_iff n s.ctx.len).mpr h
  rw [State.committed, hfills, Context.commit_of_last hfills]

section
variable {s : State} (hb : s.busy = false)
include hb

theorem exec_commit_absent (hr : s.params.hasRawPort = false) (n : Byte) :
    exec (.commit n) s = .next (s.raise .illegalOp) := by
  show execCommit n s = _
  rw [execCommit, whenReady_idle hb, if_pos hr]

theorem exec_commit_finished (hr : s.params.hasRawPort = true) (hm : s.ctx.mode = .finished) (n : Byte) :
    exec (.commit n) s = .next (s.raise .afterFinish) := by
  show execCommit n s = _
  rw [execCommit, whenReady_idle hb, if_neg (by simp [hr]), if_pos hm]

theorem exec_commit_overflow (hr : s.params.hasRawPort = true) (hm : s.ctx.mode = .active) {n : Byte}
    (ho : 64 < n.toNat + (offset s.ctx.len).toNat) : exec (.commit n) s = .next (s.raise .commitOverflow) := by
  show execCommit n s = _
  rw [execCommit, whenReady_idle hb, if_neg (by simp [hr]), if_neg (by rw [hm]; decide),
    if_pos ((commitOverflows_iff n _).mpr ho)]

theorem exec_commit_fits (hr : s.params.hasRawPort = true) (hm : s.ctx.mode = .active) {n : Byte}
    (hfits : n.toNat + (offset s.ctx.len).toNat ≤ 64) : exec (.commit n) s = .next (s.committed n) :=
  exec_commit hb hr hm (commitOverflows_eq_false hfits)

end

/-! ### The words of the commands (R76, R78) -/

theorem commandWord_argLow (op : BitVec 4) (arg : Byte) : commandWord op (argLow arg) = .command ((op ++ 0#4) ++ arg) := by
  rw [commandWord, argLow, BitVec.append_assoc]; rfl

/-- A one-operand command's word, its upper byte written out, decodes to the command. -/
theorem decode_argWord {hasRaw : Bool} {i : Instr} {op : BitVec 4} {arg : Byte} (h : encode i = commandWord op (argLow arg))
    (hwf : i.wellFormed hasRaw = true) : decode hasRaw (.command ((op ++ 0#4) ++ arg)) = .ok i := by
  rw [← commandWord_argLow, ← h]
  exact decodeOfEncodeIsTheInstruction hasRaw i hwf

/-! ### Both ports at one edge (R105) -/

/-- The command of an edge runs on the state that the raw port left. -/
theorem step_of_idle_raw_first {s u : State} {p : Pins} {rest : List HostAction}
    (hpins : nextPins s.busy s.inputs = (p, rest)) (hrst : p.rst = false) (hb : s.busy = false)
    (hu : perform (p.raw.map .raw) { s with inputs := rest } = .next u) :
    step s = perform (p.cmd.map .command) u := by
  obtain ⟨t, ht, ⟨hr, -⟩ | ⟨-, v, hv, ⟨hbusy, -⟩ | ⟨-, -, hcmd⟩⟩⟩ := step_inversion s hpins
  · rw [hrst] at hr; cases hr
  · rw [hb] at hbusy; cases hbusy
  · rw [State.afterPins_of_idle hb hrst] at hv
    obtain rfl := Host.Outcome.next.inj (hv.symm.trans hu)
    exact ht.trans hcmd.symm

/-- Settles O11: the raw write keeps the parameters, so the command's word decodes on the state it left as before. -/
theorem sameEdgeRawWriteComesFirst : Obligations.SameEdgeRawWriteComesFirst := by
  intro s p rest b c r hpins hb hrst hraw hcmd hdec
  obtain ⟨u, hu, -⟩ := exec_case r { s with inputs := rest }
  have hperform : perform (p.raw.map .raw) { s with inputs := rest } = .next u := by
    rw [hraw]; exact (perform_ok (s := { s with inputs := rest }) hdec).trans hu
  have hparams : u.params = s.params := perform_params (s := { s with inputs := rest }) hperform
  have hstep : step s = perform (some (.command c)) u := by
    rw [step_of_idle_raw_first hpins hrst hb hperform, hcmd]; rfl
  refine ⟨u, hu, fun i hi => ?_, fun he => ?_⟩
  · rw [← hparams] at hi
    exact hstep.trans (perform_ok hi)
  · rw [← hparams] at he
    exact hstep.trans (perform_error he)

/-! ### What each command does (R100, R102, R104, R106) -/

theorem Context.initial_dig : ∀ i : Fin 16, Context.initial.dig[i] = 0x00#8 := by decide

/-- Settles O24. -/
theorem initConstructsAnEmptyContext : Obligations.InitConstructsAnEmptyContext :=
  ⟨fun hasRaw => decodeOfEncodeIsTheInstruction hasRaw .init rfl, fun s hb =>
    ⟨s.initialised, exec_init hb, rfl, rfl, rfl, fun _ => rfl, Context.initial_dig, rfl, hb⟩⟩

/-- What a command that completes a block leaves: the STEP's result owed after L_STEP cycles of BUSY, the command's own writes
held (R130). -/
theorem State.absorb_owes (s : State) (accepted result : Context) :
    (s.absorb true accepted result).flight = some ⟨s.params.lStep - 1, result⟩ ∧
      (s.absorb true accepted result).ctx = accepted ∧ (s.absorb true accepted result).err = s.err ∧
      (s.absorb true accepted result).ecause = s.ecause ∧ (s.absorb true accepted result).params = s.params ∧
      (s.absorb true accepted result).inputs = s.inputs :=
  ⟨by simp [State.absorb_full], State.absorb_ctx _ _ _ _, State.absorb_err _ _ _ _, State.absorb_ecause _ _ _ _,
    State.absorb_params _ _ _ _, State.absorb_inputs _ _ _ _⟩

/-- Settles O25: a refusal, a byte with space behind it, and the block's last byte. -/
theorem writeFeedsOneByte : Obligations.WriteFeedsOneByte := by
  refine ⟨fun hasRaw b => decode_argWord (op := 0x2#4) rfl rfl, fun b s hb =>
    ⟨fun hm => exec_write_finished hb hm b, fun hm hspace => ?_, fun hm hlast => ?_⟩⟩
  · rw [exec_write hb hm, State.written_of_space hspace]
    rfl
  · refine ⟨_, exec_write hb hm b, ?_⟩
    rw [State.written_of_last hlast, ← hlast]
    exact s.absorb_owes _ _

/-- Settles O27. -/
theorem rawWriteStoresOneByteOrIsRefused : Obligations.RawWriteStoresOneByteOrIsRefused :=
  ⟨fun a d => decodeOfEncodeIsTheInstruction true (.rawWrite a d) rfl, fun _ _ h => Bool.noConfusion (decode_raw_ok h).1,
    fun a d _ => ⟨fun hr hb => exec_rawWrite_busy hr hb a d, fun hr hb hm => exec_rawWrite_finished hr hb hm a d,
      fun hr hb hm => exec_rawWrite hb hr hm a d⟩⟩

/-- Settles O28: the three refusals, a count with space behind it, and one that completes the block. -/
theorem commitCountsRawBytes : Obligations.CommitCountsRawBytes := by
  refine ⟨fun n => decode_argWord (op := 0x3#4) rfl rfl, fun n s hb => ⟨fun hr => exec_commit_absent hb hr n,
    fun hr hm => exec_commit_finished hb hr hm n, fun hr hm ho => exec_commit_overflow hb hr hm ho,
    fun hr hm hspace => ?_, fun hr hm hlast => ?_⟩⟩
  · rw [exec_commit_fits hb hr hm (by omega), State.committed_of_space (by omega), BitVec.ofNat_toNat]
    rfl
  · refine ⟨_, exec_commit_fits hb hr hm (by omega), ?_⟩
    rw [State.committed_of_last hlast, BitVec.ofNat_toNat]
    exact s.absorb_owes _ _

end Sys2Proof.Machine
end

section
/-! SUPPORT. The feed's frames (spec 41 R101, R104, R106, 60 R202): WRITE, COMMIT and RAW_WRITE inverted, what the first two
leave unchanged in common, and what each of them and the reserved codes leave unchanged. -/

namespace Sys2Proof.Machine

/-! ### The frame of WRITE and COMMIT -/

/-- What WRITE and COMMIT leave alone whatever they do, and what they leave alone unless they complete the block. -/
structure State.FeedFrame (s : State) (fills : Bool) (t : State) : Prop where
  acc      : t.ctx.acc = s.ctx.acc
  owedDig  : t.settled.dig = s.settled.dig
  owedMode : t.settled.mode = s.settled.mode
  owedAcc  : fills = false → t.settled.acc = s.settled.acc
  stepRegs : fills = false → t.ctl = s.ctl ∧ t.ret = s.ret ∧ t.rnd = s.rnd ∧ t.work = s.work ∧ t.latched = s.latched
  fixed    : t.stages = s.stages ∧ t.params = s.params ∧ t.inputs = s.inputs ∧ t.padlen = s.padlen ∧ t.padcnt = s.padcnt

theorem State.FeedFrame.same (s : State) (fills : Bool) : s.FeedFrame fills s :=
  ⟨rfl, rfl, rfl, fun _ => rfl, fun _ => ⟨rfl, rfl, rfl, rfl, rfl⟩, rfl, rfl, rfl, rfl, rfl⟩

theorem State.FeedFrame.raise (s : State) (fills : Bool) (c : Cause) : s.FeedFrame fills (s.raise c) := by
  constructor <;> simp

theorem State.FeedFrame.absorb {s : State} (hb : s.busy = false) {fills : Bool} {accepted result : Context}
    (hacc : accepted.acc = s.ctx.acc) (hspace : fills = false → result = accepted)
    (hdig : result.dig = s.ctx.dig) (hmode : result.mode = s.ctx.mode) :
    s.FeedFrame fills (s.absorb fills accepted result) := by
  have howed := State.absorb_settled hb fills accepted result
  have hheld := State.settled_of_not_busy hb
  refine ⟨?_, by rw [howed, hheld, hdig], by rw [howed, hheld, hmode], fun hf => ?_, fun hf => ?_, ?_⟩
  · cases fills with
    | false => rw [State.absorb_idle, hspace rfl, hacc]
    | true => rw [State.absorb_ctx, if_pos rfl, hacc]
  · rw [howed, hheld, hspace hf, hacc]
  · subst hf
    exact ⟨rfl, rfl, rfl, rfl, rfl⟩
  · cases fills <;> simp [State.absorb_idle, State.absorb_full]

theorem State.FeedFrame.written {s : State} (hb : s.busy = false) (b : Byte) :
    s.FeedFrame (byteFills s.ctx.len) (s.written b) :=
  .absorb hb (Context.append_acc _ _) (fun hf => Context.put_of_space (by simpa [byteFills] using hf) b)
    (Context.put_dig _ _) (Context.put_mode _ _)

theorem State.FeedFrame.committed {s : State} (hb : s.busy = false) (n : Byte) :
    s.FeedFrame (commitFills n s.ctx.len) (s.committed n) :=
  .absorb hb (Context.count_acc _ _) Context.commit_of_space (Context.commit_dig _ _) (Context.commit_mode _ _)

/-! ### WRITE, COMMIT and RAW_WRITE inverted -/

theorem next_unique {o : Host.Outcome State Fault Refusal} {t u : State} (h : o = .next t) (h' : o = .next u) : t = u :=
  Host.Outcome.next.inj (h.symm.trans h')

/-- WRITE, inverted: not accepted, refused after FINISH, or performed. -/
theorem exec_write_inv {b : Byte} {s t : State} (h : exec (.write b) s = .next t) :
    (s.busy = true ∧ t = s) ∨ (s.ctx.mode = .finished ∧ t = s.raise .afterFinish) ∨
      (s.busy = false ∧ s.ctx.mode = .active ∧ t = s.written b) := by
  cases hb : s.busy with
  | true => exact .inl ⟨rfl, next_unique h (whenReady_busy hb _)⟩
  | false =>
    cases hm : s.ctx.mode with
    | finished => exact .inr (.inl ⟨rfl, next_unique h (exec_write_finished hb hm b)⟩)
    | active => exact .inr (.inr ⟨rfl, rfl, next_unique h (exec_write hb hm b)⟩)

/-- COMMIT, inverted: not accepted, refused where a check fails, or performed. -/
theorem exec_commit_inv {n : Byte} {s t : State} (h : exec (.commit n) s = .next t) :
    (s.busy = true ∧ t = s) ∨
      ((s.params.hasRawPort = false ∨ s.ctx.mode = .finished ∨ 64 < n.toNat + (offset s.ctx.len).toNat) ∧
        ∃ c, t = s.raise c) ∨
      (s.busy = false ∧ t = s.committed n) := by
  cases hb : s.busy with
  | true => exact .inl ⟨rfl, next_unique h (whenReady_busy hb _)⟩
  | false =>
    refine .inr ?_
    cases hr : s.params.hasRawPort with
    | false => exact .inl ⟨.inl rfl, _, next_unique h (exec_commit_absent hb hr n)⟩
    | true =>
      cases hm : s.ctx.mode with
      | finished => exact .inl ⟨.inr (.inl rfl), _, next_unique h (exec_commit_finished hb hr hm n)⟩
      | active =>
        by_cases ho : 64 < n.toNat + (offset s.ctx.len).toNat
        · exact .inl ⟨.inr (.inr ho), _, next_unique h (exec_commit_overflow hb hr hm ho)⟩
        · exact .inr ⟨rfl, next_unique h (exec_commit_fits hb hr hm (Nat.le_of_not_lt ho))⟩

/-- RAW_WRITE, inverted: no such action, refused while BUSY = 1 or after FINISH, or performed. -/
theorem exec_rawWrite_inv {a : BufIndex} {d : Byte} {s t : State} (h : exec (.rawWrite a d) s = .next t) :
    (s.params.hasRawPort = false ∧ t = s) ∨
      ((s.busy = true ∨ s.ctx.mode = .finished) ∧ ∃ c, t = s.raise c) ∨
      (s.params.hasRawPort = true ∧ s.busy = false ∧ s.ctx.mode = .active ∧ t = s.rawWritten a d) := by
  cases hr : s.params.hasRawPort with
  | false => exact .inl ⟨rfl, next_unique h (exec_rawWrite_absent hr a d)⟩
  | true =>
    refine .inr ?_
    cases hb : s.busy with
    | true => exact .inl ⟨.inl rfl, _, next_unique h (exec_rawWrite_busy hr hb a d)⟩
    | false =>
      cases hm : s.ctx.mode with
      | finished => exact .inl ⟨.inr rfl, _, next_unique h (exec_rawWrite_finished hr hb hm a d)⟩
      | active => exact .inr ⟨rfl, rfl, rfl, next_unique h (exec_rawWrite hb hr hm a d)⟩

/-! ### WRITE -/

theorem exec_write_frame {b : Byte} {s t : State} (h : exec (.write b) s = .next t) :
    s.FeedFrame (byteFills s.ctx.len) t := by
  obtain ⟨-, rfl⟩ | ⟨-, rfl⟩ | ⟨hb, -, rfl⟩ := exec_write_inv h
  · exact .same _ _
  · exact .raise _ _ _
  · exact .written hb b

theorem State.written_buf (s : State) (b : Byte) : (s.written b).ctx.buf = s.ctx.buf.write (offset s.ctx.len) b := by
  rw [State.written, State.absorb_ctx]; split <;> simp [Context.put_buf]

/-- WRITE changes no byte but the one at OFFSET, and none when it stores nothing, neither held nor owed. -/
theorem exec_write_bytes {b : Byte} {s t : State} (h : exec (.write b) s = .next t) {i : BufIndex}
    (hi : i ≠ offset s.ctx.len ∨ s.busy = true ∨ s.ctx.mode = .finished) :
    t.bufByte i = s.bufByte i ∧ (s.busy = false → Memory.read t.settled.buf i = s.bufByte i) := by
  obtain ⟨-, rfl⟩ | ⟨-, rfl⟩ | ⟨hb, hm, rfl⟩ := exec_write_inv h
  · exact ⟨rfl, fun hb => by rw [State.settled_of_not_busy hb, State.bufByte]⟩
  · exact ⟨by simp [State.bufByte], fun hb => by rw [State.raise_settled, State.settled_of_not_busy hb, State.bufByte]⟩
  · have hne : i ≠ offset s.ctx.len := by simpa [hb, hm] using hi
    have hread := Memory.read_write_ne s.ctx.buf b hne
    have howed : (s.written b).settled = s.ctx.put b := State.absorb_settled hb _ _ _
    exact ⟨by rw [State.bufByte, State.written_buf, hread, State.bufByte],
      fun _ => by rw [howed, Context.put_buf, hread, State.bufByte]⟩

theorem exec_write_flags {b : Byte} {s t : State} (h : exec (.write b) s = .next t) (hm : s.ctx.mode = .active) :
    t.err = s.err ∧ t.ecause = s.ecause := by
  obtain ⟨-, rfl⟩ | ⟨hfin, -⟩ | ⟨-, -, rfl⟩ := exec_write_inv h
  · exact ⟨rfl, rfl⟩
  · rw [hm] at hfin; cases hfin
  · exact ⟨State.absorb_err _ _ _ _, State.absorb_ecause _ _ _ _⟩

/-- Settles O33. -/
theorem frameOfWrite : Obligations.FrameOfWrite := by
  intro b s t h
  have hframe := exec_write_frame h
  exact ⟨fun i hi => exec_write_bytes h hi, hframe.owedDig, hframe.owedMode, hframe.acc,
    fun ho => hframe.owedAcc (byteFills_eq_false ho), exec_write_flags h,
    fun ho => hframe.stepRegs (byteFills_eq_false ho), hframe.fixed⟩

/-! ### RAW_WRITE -/

/-- Raising an error changes no register but the error flags (R12). -/
theorem State.raise_flags_only (s : State) (c : Cause) : ∃ e k, s.raise c = { s with err := e, ecause := k } := by
  cases h : s.err with
  | false => exact ⟨_, _, State.raise_of_clear h c⟩
  | true => exact ⟨_, _, State.raise_of_set h c⟩

/-- Settles O34: the three things a raw write can do. -/
theorem frameOfRawWrite : Obligations.FrameOfRawWrite := by
  intro a d s t h
  obtain ⟨-, rfl⟩ | ⟨hrefused, c, rfl⟩ | ⟨hr, hb, hm, rfl⟩ := exec_rawWrite_inv h
  · exact ⟨fun _ _ => rfl, fun _ _ => ⟨rfl, rfl⟩, _, _, _, rfl⟩
  · refine ⟨fun i _ => by simp [State.bufByte], fun hb hm => ?_, ?_⟩
    · simp [hb, hm] at hrefused
    · obtain ⟨e, k, he⟩ := s.raise_flags_only c
      exact ⟨_, e, k, he⟩
  · refine ⟨fun i hi => ?_, fun _ _ => ⟨rfl, rfl⟩, _, _, _, rfl⟩
    exact Memory.read_write_ne _ _ (by simpa [hr, hb, hm] using hi)

/-! ### COMMIT and the reserved codes -/

theorem exec_commit_frame {n : Byte} {s t : State} (h : exec (.commit n) s = .next t) :
    s.FeedFrame (commitFills n s.ctx.len) t := by
  obtain ⟨-, rfl⟩ | ⟨-, c, rfl⟩ | ⟨hb, rfl⟩ := exec_commit_inv h
  · exact .same _ _
  · exact .raise _ _ _
  · exact .committed hb n

theorem State.committed_buf (s : State) (n : Byte) : (s.committed n).ctx.buf = s.ctx.buf := by
  rw [State.committed, State.absorb_ctx]; split <;> simp [Context.commit_buf]

/-- COMMIT stores no byte, held or owed. -/
theorem exec_commit_buf {n : Byte} {s t : State} (h : exec (.commit n) s = .next t) :
    t.ctx.buf = s.ctx.buf ∧ t.settled.buf = s.settled.buf := by
  obtain ⟨-, rfl⟩ | ⟨-, c, rfl⟩ | ⟨hb, rfl⟩ := exec_commit_inv h
  · exact ⟨rfl, rfl⟩
  · simp
  · have howed : (s.committed n).settled = s.ctx.commit n := State.absorb_settled hb _ _ _
    exact ⟨s.committed_buf n, by rw [howed, Context.commit_buf, State.settled_of_not_busy hb]⟩

theorem exec_commit_flags {n : Byte} {s t : State} (h : exec (.commit n) s = .next t) (hr : s.params.hasRawPort = true)
    (hm : s.ctx.mode = .active) (hfits : n.toNat + (offset s.ctx.len).toNat ≤ 64) :
    t.err = s.err ∧ t.ecause = s.ecause := by
  obtain ⟨-, rfl⟩ | ⟨hrefused, -⟩ | ⟨-, rfl⟩ := exec_commit_inv h
  · exact ⟨rfl, rfl⟩
  · have ho : 64 < n.toNat + (offset s.ctx.len).toNat := by simpa [hr, hm] using hrefused
    omega
  · exact ⟨State.absorb_err _ _ _ _, State.absorb_ecause _ _ _ _⟩

theorem illegalOpcode_inv {s t : State} (h : illegalOpcode s = .next t) : ∃ e k, t = { s with err := e, ecause := k } := by
  cases hb : s.busy with
  | true => exact ⟨_, _, next_unique h (whenReady_busy hb _)⟩
  | false =>
    obtain rfl := next_unique h (whenReady_idle hb _)
    exact s.raise_flags_only .illegalOp

/-- Settles O35: COMMIT by its frame, the twelve reserved codes by their one meaning. -/
theorem frameOfInstructionsThatStoreNothing : Obligations.FrameOfInstructionsThatStoreNothing := by
  refine ⟨fun n s t h => ?_, fun i low s t hi h => ?_⟩
  · have hframe := exec_commit_frame h
    obtain ⟨hheld, howed⟩ := exec_commit_buf h
    refine ⟨fun i => by rw [State.bufByte, hheld, State.bufByte], howed, hframe.owedDig, hframe.owedMode, hframe.acc,
      fun ho => ?_, exec_commit_flags h, hframe.fixed⟩
    have hspace := commitFills_eq_false ho
    exact ⟨hframe.owedAcc hspace, hframe.stepRegs hspace⟩
  · have hill : exec i s = illegalOpcode s := by fin_cases hi <;> rfl
    obtain ⟨e, k, rfl⟩ := illegalOpcode_inv (hill.symm.trans h)
    exact ⟨fun _ => rfl, e, k, rfl⟩

end Sys2Proof.Machine
end

section
/-! SUPPORT. A raw feed is a feed by WRITEs (spec 41 R107): a WRITE is a raw write at OFFSET and COMMIT 1, and bytes counted one
by one are bytes counted together. -/

namespace Sys2Proof.Machine

theorem execAll_append (is js : List Instr) (s : State) :
    execAll (is ++ js) s = andThen (execAll is s) (execAll js) := by
  induction is generalizing s with
  | nil => rfl
  | cons i is ih =>
    obtain ⟨t, ht, -⟩ := exec_case i s
    simp only [List.cons_append, execAll, ht, andThen_next, ih]

/-- The bytes stored at a, a + 1, ... -/
def Memory.fill (m : Memory) (a : BufIndex) : List Byte → Memory
  | [] => m
  | b :: bs => (m.write a b).fill (a + 1) bs

/-- The state after the raw writes of RAWFILL (R83, R104). -/
def State.rawFilled (s : State) (a : BufIndex) (bs : List Byte) : State :=
  { s with ctx := { s.ctx with buf := Memory.fill s.ctx.buf a bs } }

theorem execAll_rawfill {s : State} (hb : s.busy = false) (hr : s.params.hasRawPort = true) (hm : s.ctx.mode = .active)
    (a : BufIndex) (bs : List Byte) : execAll (rawfill a bs) s = .next (s.rawFilled a bs) := by
  induction bs generalizing s a with
  | nil => rfl
  | cons b bs ih =>
    simp only [rawfill, execAll, exec_rawWrite hb hr hm, andThen_next]
    exact ih (s := s.rawWritten a b) hb hr hm (a + 1)

theorem toNat_offset_add {len : Len} {m : Byte} (h : m.toNat + (offset len).toNat < 64) :
    (offset (len + m.setWidth 64)).toNat = m.toNat + (offset len).toNat := by
  simp only [toNat_offset, BitVec.toNat_add, BitVec.toNat_setWidth] at *
  omega

theorem Context.count_count (c : Context) {m n : Byte} (h : m.toNat + n.toNat < 256) :
    (c.count m).count n = c.count (m + n) := by
  have hsum : (m + n).setWidth 64 = m.setWidth 64 + n.setWidth 64 := by
    apply BitVec.eq_of_toNat_eq
    simp only [BitVec.toNat_add, BitVec.toNat_setWidth]
    omega
  simp only [Context.count, hsum, BitVec.add_assoc]

/-- Bytes counted short of the block's end and then the rest are one COMMIT of them all. -/
theorem State.counted_committed {s : State} {m n : Byte} (hm : m.toNat + (offset s.ctx.len).toNat < 64)
    (hn : m.toNat + n.toNat + (offset s.ctx.len).toNat ≤ 64) : (s.counted m).committed n = s.committed (m + n) := by
  have hsum : (m + n).toNat = m.toNat + n.toNat := by rw [BitVec.toNat_add]; omega
  have hoff : (offset (s.counted m).ctx.len).toNat = m.toNat + (offset s.ctx.len).toNat := toNat_offset_add hm
  have hcount : (s.counted m).ctx.count n = s.ctx.count (m + n) := Context.count_count _ (by omega)
  by_cases hlast : m.toNat + n.toNat + (offset s.ctx.len).toNat = 64
  · rw [State.committed_of_last (by omega), State.committed_of_last (by omega), hcount]
    rfl
  · rw [State.committed_of_space (by omega), State.committed_of_space (by omega), State.counted, hcount]
    rfl

/-- R107 for one byte: WRITE is the raw write at OFFSET and COMMIT 1. -/
theorem State.written_eq_committed (s : State) (b : Byte) :
    s.written b = (s.rawWritten (offset s.ctx.len) b).committed 1#8 := by
  have hone : (1#8).toNat = 1 := rfl
  by_cases hlast : offset s.ctx.len = 63#6
  · rw [State.written_of_last hlast, State.committed_of_last (by simp [State.rawWritten, hlast])]
    rfl
  · have hoff : (offset s.ctx.len).toNat ≠ 63 := fun h => hlast (BitVec.eq_of_toNat_eq h)
    rw [State.written_of_space hlast, State.committed_of_space (by simp only [State.rawWritten, hone]; omega)]
    rfl

theorem State.committed_zero (s : State) : s.committed 0#8 = s := by
  have := (offset s.ctx.len).isLt
  rw [State.committed_of_space (by simp only [BitVec.toNat_ofNat]; omega)]
  simp [State.counted, Context.count]

/-- Where a byte that does not complete the block is written and more are staged behind it, all are staged and one is counted. -/
theorem State.rawFilled_counted (s : State) (b : Byte) (bs : List Byte) :
    ((s.rawWritten (offset s.ctx.len) b).counted 1#8).rawFilled (offset (s.ctx.len + 1#64)) bs =
      (s.rawFilled (offset s.ctx.len) (b :: bs)).counted 1#8 := by
  rw [offset_add_one]; rfl

theorem execAll_writes {s : State} (hb : s.busy = false) (hm : s.ctx.mode = .active) {bs : List Byte}
    (hfits : bs.length + (offset s.ctx.len).toNat ≤ 64) : execAll (bs.map .write) s =
      .next ((s.rawFilled (offset s.ctx.len) bs).committed (BitVec.ofNat 8 bs.length)) := by
  induction bs generalizing s with
  | nil => exact congrArg _ (State.committed_zero s).symm
  | cons b bs ih =>
    rw [List.map_cons, execAll, exec_write hb hm, andThen_next, State.written_eq_committed]
    by_cases hbs : bs = []
    · subst hbs; rfl
    have hpos := List.length_pos_iff.mpr hbs
    rw [List.length_cons] at hfits ⊢
    have hone : (1#8).toNat = 1 := rfl
    have hlen : (BitVec.ofNat 8 bs.length).toNat = bs.length := by rw [BitVec.toNat_ofNat]; omega
    have hroom : (1#8).toNat + (offset s.ctx.len).toNat < 64 := by omega
    have hall : (1#8).toNat + (BitVec.ofNat 8 bs.length).toNat + (offset s.ctx.len).toNat ≤ 64 := by omega
    have hrest : bs.length + (offset (s.ctx.len + 1#64)).toNat ≤ 64 := by
      rw [toNat_offset_next (by omega)]; omega
    have hcount : ((s.rawFilled (offset s.ctx.len) (b :: bs)).counted 1#8).committed (BitVec.ofNat 8 bs.length) =
        (s.rawFilled (offset s.ctx.len) (b :: bs)).committed (BitVec.ofNat 8 (bs.length + 1)) := by
      rw [State.counted_committed (s := s.rawFilled _ (b :: bs)) hroom hall, ← BitVec.ofNat_add, Nat.add_comm]
    rw [State.committed_of_space (s := s.rawWritten _ b) (Nat.ne_of_lt hroom),
      ih (s := (s.rawWritten _ b).counted 1#8) hb hm hrest, ← hcount, ← State.rawFilled_counted]
    rfl

/-- Settles O29: both feeds leave the filled buffer with its bytes committed. -/
theorem rawFeedEqualsWriteFeed : Obligations.RawFeedEqualsWriteFeed := by
  intro s bs hb hm hr hfits
  have hlen : (BitVec.ofNat 8 bs.length).toNat = bs.length := by rw [BitVec.toNat_ofNat]; omega
  refine ⟨_, ?_, execAll_writes hb hm hfits, ?_⟩
  · rw [execAll_append, execAll_rawfill hb hr hm, andThen_next, execAll,
      exec_commit_fits (s := s.rawFilled _ bs) hb hr hm (by rw [hlen]; exact hfits)]
    rfl
  · rw [State.committed, State.absorb_busy, show (s.rawFilled _ bs).busy = false from hb, Bool.or_false, commitFills_iff, hlen]
    rfl

end Sys2Proof.Machine
end

section
/-! SUPPORT. One round (spec 42 R122 to R124): the message word it reads and the function of its group. -/

namespace Sys2Proof.Machine

/-- What sets the rounds of a group apart: the group's function (R122) and its row of the schedule (R123). -/
structure InGroup (i : Nat) (f : Word → Word → Word → Word) (g : Nat) : Prop where
  fn    : ∀ x y z, roundFn i x y z = f x y z
  index : scheduleIndex i = g

section
variable {i g : Nat} {f : Word → Word → Word → Word}

theorem inGroup_F (h : i < 16) : InGroup i fF i := by
  have hg : i / 16 = 0 := by omega
  exact ⟨fun _ _ _ => by simp only [roundFn, hg], by simp only [scheduleIndex, hg]⟩

theorem inGroup_G (h : 16 ≤ i) (h' : i < 32) : InGroup i fG (5 * i + 1) := by
  have hg : i / 16 = 1 := by omega
  exact ⟨fun _ _ _ => by simp only [roundFn, hg], by simp only [scheduleIndex, hg]⟩

theorem inGroup_H (h : 32 ≤ i) (h' : i < 48) : InGroup i fH (3 * i + 5) := by
  have hg : i / 16 = 2 := by omega
  exact ⟨fun _ _ _ => by simp only [roundFn, hg], by simp only [scheduleIndex, hg]⟩

theorem inGroup_I (h : 48 ≤ i) (h' : i < 64) : InGroup i fI (7 * i) := by
  have hg : i / 16 = 3 := by omega
  exact ⟨fun _ _ _ => by simp only [roundFn, hg], by simp only [scheduleIndex, hg]⟩

theorem InGroup.wordIndex (h : InGroup i f g) : (wordIndex i).val = g % 16 := by
  rw [Machine.wordIndex, h.index, Fin.val_ofNat]

theorem InGroup.round (h : InGroup i f g) (w : Quad) (m : Vector Word 16) :
    round i w m = ⟨w.d, w.b + rotl32 (w.a + f w.b w.c w.d + kOf i + m[Machine.wordIndex i]) (sOf i), w.b, w.c⟩ := by
  rw [Machine.round, roundTemp, h.fn]

end

/-- Each group's row of the schedule is a permutation of the sixteen words. -/
theorem wordIndex_unique : ∀ (grp : Fin 4) (j : Fin 16), ∃ r : Fin 16, wordIndex (16 * grp + r) = j ∧
    ∀ r' : Fin 16, wordIndex (16 * grp + r') = j → r' = r := by decide

/-- Settles O44: the four ranges by their group's row of the schedule, and each row is a permutation. -/
theorem scheduleReadsEveryWordOncePerGroup : Obligations.ScheduleReadsEveryWordOncePerGroup := by
  refine ⟨fun i h => ?_, fun i h h' => (inGroup_G h h').wordIndex, fun i h h' => (inGroup_H h h').wordIndex,
    fun i h h' => (inGroup_I h h').wordIndex, fun grp hgrp j => ?_⟩
  · rw [(inGroup_F h).wordIndex, Nat.mod_eq_of_lt h]
  · obtain ⟨r, hr, hunique⟩ := wordIndex_unique ⟨grp, hgrp⟩ j
    exact ⟨r, r.isLt, hr, fun r' hlt h => congrArg Fin.val (hunique ⟨r', hlt⟩ h)⟩

/-- Settles O45, group by group. -/
theorem roundRotatesTheWorkingRegisters : Obligations.RoundRotatesTheWorkingRegisters :=
  fun _ w m => ⟨fun h => (inGroup_F h).round w m, fun h h' => (inGroup_G h h').round w m,
    fun h h' => (inGroup_H h h').round w m, fun h h' => (inGroup_I h h').round w m⟩

end Sys2Proof.Machine
end

section
/-! SUPPORT. The reference controller's STEP (spec 42 R130 to R132), for every engine: the ROUND edges, the ACCUM edge, and the
commands that start it. -/

namespace Sys2Proof.Machine

/-! ### A stretch of the controller's work -/

/-- From s the reference controller comes in n edges, not idle before, to t: with CTL = q and the registers c, the parameters
and PADLEN being as they were. -/
structure State.Reaches (s : State) (n : Nat) (q : Ctl) (c : Context) (t : State) : Prop where
  run    : s.controllerRun n = t
  works  : ∀ k, k < n → (s.controllerRun k).ctl ≠ .idle
  ctl    : t.ctl = q
  ctx    : t.ctx = c
  params : t.params = s.params
  padlen : t.padlen = s.padlen

theorem State.controllerRun_succ (s : State) (n : Nat) : s.controllerRun (n + 1) = (s.controllerRun n).controllerEdge :=
  State.controllerRun_append n s 1

theorem State.Reaches.trans {s t u : State} {a b : Nat} {p q : Ctl} {c d : Context} (h : s.Reaches a p c t)
    (h' : t.Reaches b q d u) : s.Reaches (a + b) q d u where
  run := by rw [State.controllerRun_append, h.run, h'.run]
  works k hk := by
    by_cases hka : k < a
    · exact h.works k hka
    · rw [show k = a + (k - a) by omega, State.controllerRun_append, h.run]
      exact h'.works (k - a) (by omega)
  ctl := h'.ctl
  ctx := h'.ctx
  params := h'.params.trans h.params
  padlen := h'.padlen.trans h.padlen

theorem State.Reaches.of_eq {s t : State} {n m : Nat} {q : Ctl} {c d : Context} (h : s.Reaches n q c t) (hn : n = m)
    (hc : c = d) : s.Reaches m q d t := hn ▸ hc ▸ h

/-- One edge of a controller at work. -/
theorem State.Reaches.edge {s t : State} {q : Ctl} {c : Context} (hs : s.ctl ≠ .idle) (ht : s.controllerEdge = t)
    (hctl : t.ctl = q) (hctx : t.ctx = c) (hp : t.padlen = s.padlen) : s.Reaches 1 q c t where
  run := ht
  works k hk := by rwa [show k = 0 by omega]
  ctl := hctl
  ctx := hctx
  params := by rw [← ht, State.controllerEdge_params]
  padlen := hp

/-! ### The ROUND edges (R130 to R132) -/

/-- The controller is about to take the first round of a STEP (R120). -/
structure State.StepStarted (s : State) : Prop where
  ctl     : s.ctl = .round
  rnd     : s.rnd = 0#6
  work    : s.work = s.ctx.acc
  latched : s.latched = messageWords s.ctx.buf

theorem State.startStep_started (s : State) (r : Ret) : (s.startStep r).StepStarted := by
  constructor <;> simp

theorem State.StepStarted.launch {s : State} (h : s.StepStarted) (n : Nat) (c : Context) : (s.launch n c).StepStarted :=
  ⟨h.ctl, h.rnd, h.work, h.latched⟩

/-- The block in the buffer and its working set after the first i rounds. -/
def State.blockAfter (s : State) (i : Nat) : Stage := ⟨rounds (messageWords s.ctx.buf) i 0 s.ctx.acc, messageWords s.ctx.buf⟩

/-- The controller, started at s, is at u after the first i rounds: about to take the next one, or to accumulate. -/
structure State.RoundsDone (s : State) (i : Nat) (u : State) : Prop where
  ctl    : u.ctl = if i < 64 then .round else .accum
  rnd    : i < 64 → u.rnd.toNat = i
  input  : i < 64 → u.roundInput = s.blockAfter i
  output : i = 64 → u.stepOutput = (s.blockAfter 64).work
  stages : pipelined s.params.engine = true → ∀ j : Fin 64, u.stages[j] =
    if j.val < i then s.blockAfter (j.val + 1) else s.stages[j]
  params : u.params = s.params
  ctx    : u.ctx = s.ctx
  ret    : u.ret = s.ret
  padlen : u.padlen = s.padlen
  padcnt : u.padcnt = s.padcnt

theorem State.StepStarted.roundsDone {s : State} (h : s.StepStarted) : s.RoundsDone 0 s where
  ctl := h.ctl
  rnd _ := by rw [h.rnd]; rfl
  input _ := by simp [State.roundInput, State.blockAfter, rounds, h.rnd, h.work, h.latched]
  output h := by cases h
  stages _ j := by simp
  params := rfl
  ctx := rfl
  ret := rfl
  padlen := rfl
  padcnt := rfl

theorem roundsPerEdge_pos (e : Engine) : 0 < roundsPerEdge e := by cases e <;> decide

/-- The ROUND edges of a STEP are 64/k, with no round left over (R131). -/
theorem div_mul_roundsPerEdge (e : Engine) : 64 / roundsPerEdge e * roundsPerEdge e = 64 := by cases e <;> rfl

theorem State.roundEdge_of_more {s : State} (h : s.rnd.toNat + roundsPerEdge s.params.engine < 64) : s.roundEdge =
    { s.putRound s.roundResult with rnd := s.rnd + BitVec.ofNat 6 (roundsPerEdge s.params.engine) } := if_pos h

theorem State.roundEdge_of_last {s : State} (h : ¬ s.rnd.toNat + roundsPerEdge s.params.engine < 64) :
    s.roundEdge = { s.putRound s.roundResult with ctl := .accum } := if_neg h

theorem State.roundEdge_kept (s : State) : s.roundEdge.ctx = s.ctx ∧ s.roundEdge.ret = s.ret ∧
    s.roundEdge.padlen = s.padlen ∧ s.roundEdge.padcnt = s.padcnt ∧
    s.roundEdge.stages = (s.putRound s.roundResult).stages := by
  unfold State.roundEdge
  simp only
  split <;> simp

section
variable {s u : State} {i : Nat} (h : s.RoundsDone i u)
include h

/-- A ROUND edge puts away the block after k more rounds. -/
theorem State.RoundsDone.roundResult (hi : i < 64) :
    u.roundResult = s.blockAfter (i + roundsPerEdge s.params.engine) := by
  rw [State.roundResult, h.input hi, h.rnd hi, h.params]
  simp only [State.blockAfter, rounds_append, Nat.zero_add]

/-- In the pipeline that block goes to the stage of round i, the other stages staying as they are (R132). -/
theorem State.RoundsDone.putRound_stages (hi : i < 64) (hp : pipelined s.params.engine = true) (j : Fin 64) :
    (u.putRound u.roundResult).stages[j] = if j.val < i + 1 then s.blockAfter (j.val + 1) else s.stages[j] := by
  have hput : (u.putRound u.roundResult).stages = u.stages.set i (s.blockAfter (i + 1)) := by
    rw [State.putRound_stages, h.params, if_pos hp, h.roundResult hi, roundsPerEdge_of_pipelined hp]
    simp only [h.rnd hi]
  rw [hput, Fin.getElem_fin, Vector.getElem_set]
  split
  next hij => rw [if_pos (by omega), hij]
  next hij =>
    have hj : j.val < i + 1 ↔ j.val < i := by omega
    simp only [hj]
    exact h.stages hp j

/-- A ROUND edge does k more rounds: another ROUND edge takes in their result, or the ACCUM edge adds it (R130, R131). -/
theorem State.RoundsDone.controllerEdge (hi : i + roundsPerEdge s.params.engine ≤ 64) :
    s.RoundsDone (i + roundsPerEdge s.params.engine) u.controllerEdge := by
  have hk := roundsPerEdge_pos s.params.engine
  have hlt : i < 64 := by omega
  have hedge : u.controllerEdge = u.roundEdge := by rw [State.controllerEdge, h.ctl, if_pos hlt]
  have hrnd : u.rnd.toNat + roundsPerEdge u.params.engine = i + roundsPerEdge s.params.engine := by
    rw [h.rnd hlt, h.params]
  obtain ⟨hctx, hret, hpadlen, hpadcnt, hstages⟩ := u.roundEdge_kept
  rw [← hedge] at hctx hret hpadlen hpadcnt hstages
  refine { ctl := ?_, rnd := fun hm => ?_, input := fun hm => ?_, output := fun hl => ?_, stages := fun hp j => ?_,
           params := u.controllerEdge_params.trans h.params, ctx := hctx.trans h.ctx, ret := hret.trans h.ret,
           padlen := hpadlen.trans h.padlen, padcnt := hpadcnt.trans h.padcnt }
  · rw [hedge]
    split
    next hm => rw [State.roundEdge_of_more (hrnd ▸ hm)]; simp [h.ctl, hlt]
    next hm => rw [State.roundEdge_of_last (hrnd ▸ hm)]
  · rw [hedge, State.roundEdge_of_more (hrnd ▸ hm), BitVec.toNat_add, BitVec.toNat_ofNat, h.rnd hlt, h.params]
    omega
  · rw [hedge, State.roundEdge_of_more (hrnd ▸ hm), State.roundInput_putRound u _ (hrnd ▸ hm), h.roundResult hlt]
    intro _
    rw [h.roundResult hlt, h.ctx]; rfl
  · rw [hedge, State.roundEdge_of_last (by omega), State.stepOutput_putRound u _ (by omega), h.roundResult hlt, hl]
  · rw [hstages, h.putRound_stages hlt hp, roundsPerEdge_of_pipelined hp]

end

/-- n ROUND edges do k * n rounds. -/
theorem State.StepStarted.run_rounds {s : State} (h : s.StepStarted) {n : Nat} (hn : n * roundsPerEdge s.params.engine ≤ 64) :
    s.RoundsDone (n * roundsPerEdge s.params.engine) (s.controllerRun n) := by
  induction n with
  | zero => rw [Nat.zero_mul]; exact h.roundsDone
  | succ n ih =>
    rw [Nat.succ_mul] at hn ⊢
    rw [State.controllerRun_succ]
    exact (ih (by omega)).controllerEdge hn

/-- In the pipeline k edges are k rounds (R132). -/
theorem State.StepStarted.run_pipeline {s : State} (h : s.StepStarted) (hp : pipelined s.params.engine = true) {k : Nat}
    (hk : k ≤ 64) : s.RoundsDone k (s.controllerRun k) := by
  have hone : k * roundsPerEdge s.params.engine = k := by rw [roundsPerEdge_of_pipelined hp, Nat.mul_one]
  simpa only [hone] using h.run_rounds (n := k) (by rwa [hone])

/-! ### The ACCUM edge (R127, R130) -/

theorem State.controllerEdge_of_accum {s : State} (h : s.ctl = .accum) : s.controllerEdge = s.accumEdge := by
  rw [State.controllerEdge, h]

/-- The whole STEP: 64/k + 1 edges to where RET says, with the STEP's registers (R120, R130). -/
theorem State.StepStarted.reaches {s : State} (h : s.StepStarted) :
    ∃ t, s.Reaches (referenceLStep s.params.engine) s.ret.toCtl s.ctx.step t ∧ t.padcnt = s.padcnt := by
  have hall := div_mul_roundsPerEdge s.params.engine
  have hdone : s.RoundsDone 64 (s.controllerRun (64 / roundsPerEdge s.params.engine)) := by
    simpa only [hall] using h.run_rounds (Nat.le_of_eq hall)
  have haccum : s.controllerRun (referenceLStep s.params.engine) =
      (s.controllerRun (64 / roundsPerEdge s.params.engine)).accumEdge := by
    rw [referenceLStep, State.controllerRun_succ, State.controllerEdge_of_accum (by rw [hdone.ctl]; rfl)]
  refine ⟨_, ⟨haccum, fun k hlt => ?_, by simp [State.accumEdge, hdone.ret], ?_, hdone.params, hdone.padlen⟩, hdone.padcnt⟩
  · have hle : k * roundsPerEdge s.params.engine ≤ 64 :=
      hall ▸ Nat.mul_le_mul_right _ (Nat.le_of_lt_succ hlt)
    rw [(h.run_rounds hle).ctl]
    split <;> decide
  · rw [State.accumEdge, hdone.ctx, hdone.output rfl]
    rfl

/-! ### The commands that start the engine (R102, R106, R150) -/

/-- What makes an idle core busy is FINISH, or a command that starts one STEP on the registers it accepted and owes its
result. -/
theorem ExecCase.launches {i : Instr} {s t : State} (h : ExecCase s i t) (hb : s.busy = false) (htb : t.busy = true) :
    (i = .finish ∧ t = s.startFinish) ∨ (i ≠ .finish ∧ ∃ accepted, t = s.absorb true accepted accepted.step) := by
  cases h with
  | same => rw [hb] at htb; cases htb
  | error => rw [State.raise_busy, hb] at htb; cases htb
  | init => exact absurd (hb.symm.trans htb) (by decide)
  | write b =>
    rw [State.written, State.absorb_busy, hb, Bool.or_false] at htb
    exact .inr ⟨by simp, _, State.written_of_last ((byteFills_iff_offset _).mp htb) b⟩
  | commit n =>
    rw [State.committed, State.absorb_busy, hb, Bool.or_false] at htb
    exact .inr ⟨by simp, _, State.committed_of_last ((commitFills_iff n _).mp htb)⟩
  | finish => exact .inl ⟨rfl, rfl⟩
  | rawWrite => exact absurd (hb.symm.trans htb) (by decide)

theorem exec_starts_step {i : Instr} {s t : State} (hb : s.busy = false) (h : exec i s = .next t) (htb : t.busy = true)
    (hi : i ≠ .finish) : ∃ accepted, t = s.absorb true accepted accepted.step := by
  obtain ⟨hfinish, -⟩ | ⟨-, hstep⟩ := (exec_inv h).launches hb htb
  · exact absurd hfinish hi
  · exact hstep

theorem State.absorb_started (s : State) (accepted result : Context) : (s.absorb true accepted result).StepStarted :=
  (State.startStep_started _ _).launch _ _

/-- After a command that starts one STEP the controller comes to exactly the registers that are owed. -/
theorem State.absorb_reaches (s : State) (accepted : Context) :
    ∃ t, (s.absorb true accepted accepted.step).Reaches (referenceLStep s.params.engine) .idle accepted.step t := by
  obtain ⟨t, ht, -⟩ := (s.absorb_started accepted accepted.step).reaches
  rw [State.absorb_params, State.absorb_ctx, if_pos rfl] at ht
  exact ⟨t, ht⟩

/-- Settles O47: the STEP that the command starts, whose result is owed. -/
theorem controllerStepTakesItsReferenceCycles : Obligations.ControllerStepTakesItsReferenceCycles := by
  intro i s t hb ht htb hi
  obtain ⟨accepted, rfl⟩ := exec_starts_step hb ht htb hi
  obtain ⟨u, hu⟩ := s.absorb_reaches accepted
  rw [State.absorb_settled hb, hu.run]
  exact ⟨hu.works, hu.ctl, hu.ctx⟩

/-- Settles O52: in the pipeline k edges are k rounds, and the edge after round 63 is the ACCUM edge. -/
theorem pipelineAdvancesTheBlockOneStagePerEdge : Obligations.PipelineAdvancesTheBlockOneStagePerEdge := by
  intro i s t hb he ht htb hi
  obtain ⟨accepted, rfl⟩ := exec_starts_step hb ht htb hi
  have hpipe : pipelined (s.absorb true accepted accepted.step).params.engine = true := by rw [State.absorb_params, he]; rfl
  have hrounds := fun k => (s.absorb_started accepted accepted.step).run_pipeline hpipe (k := k)
  refine ⟨fun k hk => ⟨(hrounds k hk).ctx, fun j => ?_⟩, ?_⟩
  · rw [(hrounds k hk).stages hpipe j, State.absorb_stages]; rfl
  · have hdone := hrounds 64 (Nat.le_refl 64)
    rw [State.controllerRun_succ, State.controllerEdge_of_accum hdone.ctl, State.accumEdge, State.stepOutput,
      hdone.params, if_pos hpipe, hdone.ctx]

/-! ### How long the pipeline is BUSY (R132) -/

/-- A core that has launched a command is BUSY for the command's cycles, whatever the host drives but a reset (R34). -/
theorem run_busy_of_flight {s : State} {cycles : Nat} {r : Context} (hf : s.flight = some ⟨cycles - 1, r⟩)
    (hn : NoReset s.inputs) {k : Nat} (hk : k < cycles) :
    ∃ t, Host.Core.run Sys2Proof.core k s = .next t ∧ t.busy = true := by
  have hleft : s.flight = some ⟨cycles - 1 - k + k, r⟩ := by rw [hf, Nat.sub_add_cancel (by omega)]
  obtain ⟨t, ht, htf, -⟩ := run_of_busy hleft hn
  exact ⟨t, ht, State.busy_eq_true.mpr ⟨_, htf⟩⟩

/-- Settles O53: legal latencies leave the cycles of the command's blocks, and BUSY lasts that long. -/
theorem pipelineStaysBusyForEveryBlock : Obligations.PipelineStaysBusyForEveryBlock := by
  rintro i s t hb he ⟨-, -, hlegal⟩ ht htb hn k hk
  obtain ⟨hstep, hfinish⟩ := hlegal he
  obtain ⟨rfl, rfl⟩ | ⟨hi, accepted, rfl⟩ := (exec_inv ht).launches hb htb
  · refine run_busy_of_flight (cycles := s.finishCycles) rfl (by rwa [State.startFinish_inputs]) (hk.trans_le ?_)
    refine Nat.le_trans (Nat.mul_le_mul_left 65 ?_) (hfinish (offset s.ctx.len).toFin)
    rw [BitVec.val_toFin]
    split <;> split <;> omega
  · rw [if_neg fun h => hi h.1] at hk
    exact run_busy_of_flight (cycles := s.params.lStep) rfl (by rwa [State.absorb_inputs]) (by omega)

end Sys2Proof.Machine
end

section
/-! SUPPORT. The reference controller's FINISH (spec 43 R158): the PAD edges with the STEPs they start, LENW and OUT; and what
keeps the controller on course (00 R14, 42 R133). -/

namespace Sys2Proof.Machine

/-! ### The PAD edges (R151, R158) -/

/-- The registers after a PAD edge has stored its byte. -/
def State.padded (s : State) : State := { s with ctx := s.ctx.append s.padByte, padcnt := s.padcnt + 1#7 }

section
variable {s : State} (hc : s.ctl = .pad)
include hc

theorem State.controllerEdge_of_pad_fills (h : byteFills s.ctx.len = true) :
    s.controllerEdge = s.padded.startStep .pad := by
  rw [State.controllerEdge, hc]; exact if_pos h

theorem State.controllerEdge_of_pad_last (h : byteFills s.ctx.len = false) (hlast : s.padcnt + 1#7 = s.padlen) :
    s.controllerEdge = { s.padded with ctl := .lenw } := by
  rw [State.controllerEdge, hc]; exact (if_neg (by simp [h])).trans (if_pos hlast)

theorem State.controllerEdge_of_pad_more (h : byteFills s.ctx.len = false) (hmore : s.padcnt + 1#7 ≠ s.padlen) :
    s.controllerEdge = s.padded := by
  rw [State.controllerEdge, hc]; exact (if_neg (by simp [h])).trans (if_neg hmore)

/-- One padding byte: PUT of it, with the STEP it may complete, after which PAD goes on unless it was the last. -/
theorem State.reaches_of_pad (hlast : byteFills s.ctx.len = true → s.padcnt + 1#7 ≠ s.padlen) :
    ∃ t, s.Reaches (1 + if byteFills s.ctx.len then referenceLStep s.params.engine else 0)
        (if s.padcnt + 1#7 = s.padlen then .lenw else .pad) (s.ctx.put s.padByte) t ∧ t.padcnt = s.padcnt + 1#7 := by
  have hwork : s.ctl ≠ .idle := by rw [hc]; decide
  cases hf : byteFills s.ctx.len with
  | true =>
    have hedge := State.Reaches.edge hwork (State.controllerEdge_of_pad_fills hc hf) rfl rfl rfl
    obtain ⟨t, ht, hcnt⟩ := (s.padded.startStep_started .pad).reaches
    refine ⟨t, ?_, hcnt⟩
    rw [if_neg (hlast hf), Context.put_of_last ((byteFills_iff_offset _).mp hf)]
    exact hedge.trans ht
  | false =>
    rw [Context.put_of_space (by simpa [byteFills] using hf)]
    by_cases hl : s.padcnt + 1#7 = s.padlen
    · rw [if_pos hl]
      exact ⟨_, .edge hwork (State.controllerEdge_of_pad_last hc hf hl) rfl rfl rfl, rfl⟩
    · rw [if_neg hl]
      exact ⟨_, .edge hwork (State.controllerEdge_of_pad_more hc hf hl) hc rfl rfl, rfl⟩

end

/-- The controller is in PAD with n + 1 bytes left, after which the length field is next. -/
structure State.PadsLeft (s : State) (n : Nat) : Prop where
  ctl     : s.ctl = .pad
  count   : s.padcnt.toNat + (n + 1) = s.padlen.toNat
  aligned : ((offset s.ctx.len).toNat + (n + 1)) % 64 = 56

section
variable {s : State} {n : Nat} (h : s.PadsLeft n)
include h

theorem State.PadsLeft.toNat_padcnt : (s.padcnt + 1#7).toNat = s.padcnt.toNat + 1 := by
  have hlt := s.padlen.isLt
  have hcount := h.count
  rw [BitVec.toNat_add, BitVec.toNat_ofNat]
  omega

theorem State.PadsLeft.last_iff : s.padcnt + 1#7 = s.padlen ↔ n = 0 := by
  have hcount := h.count
  rw [← BitVec.toNat_inj, h.toNat_padcnt]
  omega

/-- The last padding byte completes no block: it stands at index 55. -/
theorem State.PadsLeft.last_has_space (hf : byteFills s.ctx.len = true) : s.padcnt + 1#7 ≠ s.padlen := by
  rw [ne_eq, h.last_iff]
  rintro rfl
  have ho := h.aligned
  rw [(byteFills_iff_offset _).mp hf] at ho
  cases ho

end

/-- The byte that is not the last, and what is left after it: fill bytes (R151). -/
theorem State.PadsLeft.reaches_pad {n : Nat} {s : State} (h : s.PadsLeft (n + 1)) :
    ∃ t, s.Reaches (1 + if byteFills s.ctx.len then referenceLStep s.params.engine else 0) .pad (s.ctx.put s.padByte) t ∧
      t.PadsLeft n ∧ t.padByte = padFill := by
  obtain ⟨t, ht, htcnt⟩ := State.reaches_of_pad h.ctl h.last_has_space
  rw [if_neg fun hl => absurd (h.last_iff.mp hl) (Nat.succ_ne_zero n)] at ht
  have hcnt : t.padcnt.toNat = s.padcnt.toNat + 1 := by rw [htcnt, h.toNat_padcnt]
  have hoff : (offset t.ctx.len).toNat = ((offset s.ctx.len).toNat + 1) % 64 := by
    rw [ht.ctx, Context.put_len, offset_add_one, BitVec.toNat_add]; rfl
  have hcount := h.count
  have haligned := h.aligned
  exact ⟨t, ht, ⟨ht.ctl, by rw [hcnt, ht.padlen]; omega, by rw [hoff]; omega⟩,
    if_neg fun hz => by rw [hz] at hcnt; cases hcnt⟩

/-- All the padding bytes that are left: PUT of each, with the STEPs they complete. -/
theorem State.PadsLeft.reaches_lenw {n : Nat} {s : State} (h : s.PadsLeft n) :
    ∃ t, s.Reaches (n + 1 + referenceLStep s.params.engine * s.ctx.stepsInPuts (s.padByte :: List.replicate n padFill))
      .lenw (s.ctx.feed (s.padByte :: List.replicate n padFill)) t := by
  induction n generalizing s with
  | zero =>
    obtain ⟨t, ht, -⟩ := State.reaches_of_pad h.ctl h.last_has_space
    rw [if_pos (h.last_iff.mpr rfl)] at ht
    refine ⟨t, ?_⟩
    simpa [Context.stepsInPuts, Context.feed] using ht
  | succ n ih =>
    obtain ⟨t, ht, hleft, hbyte⟩ := h.reaches_pad
    obtain ⟨u, hu⟩ := ih hleft
    rw [ht.params, ht.ctx, hbyte, ← List.replicate_succ] at hu
    refine ⟨u, (ht.trans hu).of_eq ?_ rfl⟩
    rw [Context.stepsInPuts]
    split <;> ring

/-! ### LENW, OUT and the whole FINISH (R150, R158) -/

theorem State.reaches_of_lenw {s : State} (hc : s.ctl = .lenw) :
    ∃ t, s.Reaches (1 + referenceLStep s.params.engine) .out (s.ctx.writeLength s.padlen).step t := by
  have hedge := State.Reaches.edge (s := s) (t := s.lenwEdge) (by rw [hc]; decide) (by simp only [State.controllerEdge, hc])
    rfl rfl rfl
  obtain ⟨t, ht, -⟩ := (State.startStep_started { s with ctx := s.ctx.writeLength s.padlen } .out).reaches
  exact ⟨t, hedge.trans ht⟩

theorem State.reaches_of_out {s : State} (hc : s.ctl = .out) : s.Reaches 1 .idle s.ctx.emit s.outEdge :=
  .edge (by rw [hc]; decide) (by simp only [State.controllerEdge, hc]) rfl rfl rfl

theorem State.startFinish_padsLeft (s : State) : s.startFinish.PadsLeft (padLength (offset s.ctx.len).toNat - 1) := by
  obtain ⟨hpos, hle⟩ := padLength_bounds (offset s.ctx.len)
  have hlen : s.startFinish.padlen.toNat = padLength (offset s.ctx.len).toNat := by
    show (BitVec.ofNat 7 _).toNat = _
    rw [BitVec.toNat_ofNat]; omega
  refine ⟨rfl, ?_, ?_⟩
  · rw [hlen, show s.startFinish.padcnt.toNat = 0 from rfl]; omega
  · have ho := (offset s.ctx.len).isLt
    rw [State.startFinish_ctx, Nat.sub_add_cancel hpos, padLength]
    split <;> omega

/-- The PAD edges of a FINISH (R151). -/
theorem State.startFinish_reaches_lenw (s : State) :
    ∃ t, s.startFinish.Reaches (padLength (offset s.ctx.len).toNat +
      referenceLStep s.params.engine * s.ctx.stepsInPuts (padBytes (padLength (offset s.ctx.len).toNat))) .lenw s.ctx.pad t := by
  obtain ⟨t, ht⟩ := s.startFinish_padsLeft.reaches_lenw
  refine ⟨t, ht.of_eq ?_ (Context.pad_eq_feed s.ctx).symm⟩
  rw [Nat.sub_add_cancel (padLength_bounds _).1]
  rfl

/-- After FINISH the controller comes to exactly the registers that are owed: one edge per padding byte, those of the STEPs, and
LENW and OUT (R158). -/
theorem State.startFinish_reaches (s : State) :
    ∃ t, s.startFinish.Reaches (padLength (offset s.ctx.len).toNat + 2 + referenceLStep s.params.engine * s.ctx.stepsInFinish)
      .idle s.ctx.finish t := by
  obtain ⟨t, ht⟩ := s.startFinish_reaches_lenw
  obtain ⟨u, hu⟩ := State.reaches_of_lenw ht.ctl
  refine ⟨_, ((ht.trans hu).trans (State.reaches_of_out hu.ctl)).of_eq ?_ ?_⟩
  · rw [ht.params, State.startFinish_params, Context.stepsInFinish]
    ring
  · rw [hu.ctx, ht.ctx, ht.padlen]
    rfl

/-! ### On course (R14, R133) -/

/-- Left alone, the controller comes to the registers c. -/
def State.EndsWith (s : State) (c : Context) : Prop := ∃ n, (s.controllerRun n).ctl = .idle ∧ (s.controllerRun n).ctx = c

theorem State.Reaches.endsWith {s t : State} {n : Nat} {c : Context} (h : s.Reaches n .idle c t) : s.EndsWith c :=
  ⟨n, by rw [h.run, h.ctl], by rw [h.run, h.ctx]⟩

theorem State.EndsWith.surrounded {s : State} {c : Context} (h : s.EndsWith c) (fl : Option Flight) (er : Bool) (ec : Cause)
    (inp : List HostAction) : (s.surrounded fl er ec inp).EndsWith c := by
  obtain ⟨n, hctl, hctx⟩ := h
  exact ⟨n, by rw [State.controllerRun_surrounded]; exact hctl, by rw [State.controllerRun_surrounded]; exact hctx⟩

/-- A controller that waits stands where it stood, and one that moves on is one edge nearer to its end. -/
theorem State.EndsWith.engineProgress {s : State} {c : Context} (h : s.EndsWith c) (hwork : s.ctl ≠ .idle) :
    s.engineProgress.EndsWith c := by
  rw [State.engineProgress]
  split
  · exact h
  · obtain ⟨_ | n, hctl, hctx⟩ := h
    · exact absurd hctl hwork
    · exact ⟨n, hctl, hctx⟩

theorem State.Inv.onCourse_of_idle {s : State} (h : s.Inv) (hb : s.busy = false) : s.ControllerOnCourse :=
  ⟨0, h.idle_ctl hb, (State.settled_of_not_busy hb).symm⟩

theorem State.absorb_onCourse {s : State} (hb : s.busy = false) (accepted : Context) :
    (s.absorb true accepted accepted.step).ControllerOnCourse := by
  obtain ⟨t, ht⟩ := s.absorb_reaches accepted
  exact (State.absorb_settled hb true accepted accepted.step).symm ▸ ht.endsWith

theorem State.startFinish_onCourse (s : State) : s.startFinish.ControllerOnCourse := by
  obtain ⟨t, ht⟩ := s.startFinish_reaches
  exact ht.endsWith

/-- The command port on an idle core: the core is still idle, or the controller has just been started. -/
theorem perform_onCourse {s t : State} {w : Option PortWord} (h : s.Inv) (hb : s.busy = false)
    (ht : perform w s = .next t) : t.ControllerOnCourse := by
  cases htb : t.busy with
  | false => exact (h.perform ht).onCourse_of_idle htb
  | true =>
    obtain ⟨i, hc⟩ | rfl | ⟨c, -, rfl⟩ := perform_inv ht
    · obtain ⟨-, rfl⟩ | ⟨-, accepted, rfl⟩ := hc.launches hb htb
      · exact s.startFinish_onCourse
      · exact State.absorb_onCourse hb accepted
    · rw [hb] at htb; cases htb
    · rw [State.raise_busy, hb] at htb; cases htb

/-- While BUSY = 1 the raw port touches no register that the controller reads (R204). -/
theorem perform_raw_surrounded {w : Option (BitVec 14)} {s u : State} (h : perform (w.map .raw) s = .next u)
    (hb : s.busy = true) : ∃ er ec, u = s.surrounded s.flight er ec s.inputs := by
  obtain rfl | ⟨c, -, rfl⟩ | ⟨a, d, hidle, -⟩ := perform_raw_inv h
  · exact ⟨_, _, rfl⟩
  · exact s.raise_flags_only c
  · rw [hb] at hidle; cases hidle

theorem State.Inv.engineEdge_onCourse {s : State} (h : s.Inv) (hcourse : s.ControllerOnCourse) :
    s.engineEdge.ControllerOnCourse := by
  match hf : s.flight with
  | none => rwa [State.engineEdge_idle hf]
  | some ⟨0, r⟩ => exact h.engineEdge.onCourse_of_idle (by rw [State.engineEdge_last hf]; rfl)
  | some ⟨n + 1, r⟩ =>
    have hends : s.EndsWith r := by rwa [State.ControllerOnCourse, State.settled_of_flight hf] at hcourse
    have hwork : s.ctl ≠ .idle := h.busyCtl.mpr (State.busy_eq_true.mpr ⟨_, hf⟩)
    rw [State.engineEdge_more hf]
    exact (hends.engineProgress hwork).surrounded (some ⟨n, r⟩) _ _ _

/-- Settles O49: after a reset the core is idle; while BUSY = 1 the controller waits or moves along its course; a command
leaves the core idle, or starts the controller on the course of its STEP or FINISH. -/
theorem everyEdgeKeepsTheControllerOnCourse : Obligations.EveryEdgeKeepsTheControllerOnCourse := by
  intro s t h hcourse ht
  obtain ⟨l, rfl⟩ | ⟨p, rest, u, hu, hc⟩ := step_inv ht
  · exact (State.afterReset_inv s.params l).onCourse_of_idle rfl
  · have hui : u.Inv := (h.afterPins p rest).perform hu
    obtain ⟨hb, rfl⟩ | ⟨hb, hcmd⟩ := hc
    · obtain ⟨er, ec, rfl⟩ := perform_raw_surrounded hu hb
      exact hui.engineEdge_onCourse (State.EndsWith.surrounded hcourse s.flight er ec _)
    · obtain ⟨-, -, hflight, -⟩ := perform_raw_kept hu
      have hub : u.busy = false := by rw [State.busy, hflight]; exact hb
      exact perform_onCourse hui hub hcmd

end Sys2Proof.Machine
end

section
/-! SUPPORT. FINISH's registers and STEPs (spec 43 R150 to R159): the length and its encoding, what the padding leaves in BUF and
ACC, the STEPs of a message, and the edges of the reference controller. -/

namespace Sys2Proof.Machine

/-! ### The length and its encoding (R152, R153) -/

theorem toNat_bitLength (len : Len) : (bitLength len).toNat = len.toNat * 8 % 2 ^ 64 := BitVec.toNat_mul len 8#64

theorem bitLength_eq_append (len : Len) : bitLength len = len.extractLsb' 0 61 ++ 0#3 := by
  apply BitVec.eq_of_toNat_eq
  rw [toNat_bitLength, BitVec.toNat_append, BitVec.extractLsb'_toNat]
  simp only [Nat.shiftRight_zero, BitVec.toNat_ofNat, Nat.zero_mod, Nat.or_zero, Nat.shiftLeft_eq]
  omega

/-- Settles O40. -/
theorem bitLengthWrapsModulo64Bits : Obligations.BitLengthWrapsModulo64Bits :=
  fun len => ⟨bitLength_eq_append len, toNat_bitLength len⟩

@[simp] theorem Context.finish_len (c : Context) : c.finish.len = c.len := by
  rw [Context.finish, Context.emit_len, Context.step_len, Context.writeLength_len, Context.pad_len_sub]

/-- Settles O39. -/
theorem finishRestoresTheLength : Obligations.FinishRestoresTheLength := Context.finish_len

/-! ### The STEPs of a message (R38, R159) -/

theorem toNat_offset_add_one (l : Len) : (offset (l + 1#64)).toNat = ((offset l).toNat + 1) % 64 := by
  rw [offset_add_one, BitVec.toNat_add]; rfl

theorem byteFills_iff_toNat (l : Len) : byteFills l = true ↔ (offset l).toNat = 63 := by
  rw [byteFills_iff_offset, ← BitVec.toNat_inj]; rfl

/-- PUT steps once for every block boundary that the bytes reach. -/
theorem Context.stepsInPuts_eq (c : Context) (bs : List Byte) :
    c.stepsInPuts bs = ((offset c.len).toNat + bs.length) / 64 := by
  induction bs generalizing c with
  | nil => have := (offset c.len).isLt; simp only [Context.stepsInPuts, List.length_nil]; omega
  | cons b bs ih =>
    have ho := (offset c.len).isLt
    rw [Context.stepsInPuts, ih, Context.put_len, toNat_offset_add_one, List.length_cons]
    split
    next hlast => rw [byteFills_iff_toNat] at hlast; omega
    next hspace => rw [byteFills_iff_toNat] at hspace; omega

/-- FINISH steps once, or twice where the length field does not fit behind the marker (R150, R155). -/
theorem Context.stepsInFinish_eq (c : Context) : c.stepsInFinish = if (offset c.len).toNat < 56 then 1 else 2 := by
  have ho := (offset c.len).isLt
  rw [Context.stepsInFinish, Context.stepsInPuts_eq, length_padBytes (padLength_bounds _).1, padLength]
  split <;> omega

/-- Settles O41: one STEP for each whole block fed, and FINISH's by where the last byte stands. -/
theorem stepCountOfAMessage : Obligations.StepCountOfAMessage := by
  intro bs
  have hfed : (offset (Context.initial.feed bs).len).toNat = bs.length % 64 := (Context.initial_holds.feed bs).offset_eq
  have hstart : (offset Context.initial.len).toNat = 0 := rfl
  rw [Context.stepsInPuts_eq, Context.stepsInFinish_eq, hfed, hstart]
  split <;> omega

/-! ### The reference controller's edges (R158) -/

/-- Settles O48: the controller's run through FINISH, its STEPs counted. -/
theorem controllerFinishTakesItsReferenceCycles : Obligations.ControllerFinishTakesItsReferenceCycles := by
  intro s t hb hm ht
  obtain rfl := next_unique ht (exec_finish hb hm)
  obtain ⟨u, hu⟩ := s.startFinish_reaches
  rw [Context.stepsInFinish_eq, ← referenceLFinish] at hu
  rw [hu.run, State.startFinish_settled]
  exact ⟨hu.works, hu.ctl, hu.ctx⟩

/-! ### What FINISH leaves in BUF and ACC (R150, R151, R155) -/

theorem Context.finish_buf (c : Context) : c.finish.buf = writeLengthField c.pad.buf (bitLength c.len) := by
  rw [Context.finish, Context.emit_buf, Context.step_buf, Context.writeLength_buf, Context.pad_len_sub]

theorem Context.finish_acc (c : Context) : c.finish.acc = compress c.pad.acc (messageWords c.finish.buf) := by
  rw [Context.finish_buf, Context.finish, Context.emit_acc, Context.step_acc, Context.writeLength_acc,
    Context.writeLength_buf, Context.pad_len_sub]

/-- The context when the marker and fill bytes have completed the block that OFFSET points into. -/
def Context.fillBlock (c : Context) : Context := (c.put padMarker).putFill (63 - (offset c.len).toNat)

/-- Below OFFSET 56 the padding completes no block. -/
theorem Context.pad_acc_of_room {c : Context} (h : (offset c.len).toNat < 56) : c.pad.acc = c.acc := by
  rw [Context.pad, Context.putFill_acc_of_space, Context.put_acc_of_space (by omega)]
  rw [Context.put_len, toNat_offset_add_one, padLength, if_pos h]
  omega

theorem Context.fillBlock_acc (c : Context) : c.fillBlock.acc = compress c.acc (messageWords c.fillBlock.buf) := by
  have ho := (offset c.len).isLt
  by_cases hlast : (offset c.len).toNat = 63
  · rw [Context.fillBlock, hlast]
    exact Context.put_acc_of_last hlast padMarker
  · rw [Context.fillBlock, Context.putFill_acc_of_last _ _ (by omega), Context.put_acc_of_space hlast]
    rw [Context.put_len, toNat_offset_next hlast]
    omega

theorem Context.fillBlock_offset (c : Context) : (offset c.fillBlock.len).toNat = 0 := by
  have ho := (offset c.len).isLt
  rw [toNat_offset] at ho
  rw [Context.fillBlock, (Context.putFill_kept _ _).1, Context.put_len, toNat_offset, toNat_offset, BitVec.toNat_add,
    BitVec.toNat_add, BitVec.toNat_ofNat, BitVec.toNat_ofNat]
  omega

/-- From OFFSET 56 on the padding completes one block and goes on with 56 fill bytes. -/
theorem Context.pad_of_overflow {c : Context} (h : 56 ≤ (offset c.len).toNat) : c.pad = c.fillBlock.putFill 56 := by
  have ho := (offset c.len).isLt
  rw [Context.fillBlock, ← Context.putFill_append, Context.pad, padLength, if_neg (by omega)]
  congr 1
  omega

theorem Context.pad_acc_of_overflow {c : Context} (h : 56 ≤ (offset c.len).toNat) :
    c.pad.acc = compress c.acc (messageWords c.fillBlock.buf) := by
  rw [Context.pad_of_overflow h, Context.putFill_acc_of_space _ _ (by rw [Context.fillBlock_offset]; decide),
    Context.fillBlock_acc]

section
variable {c : Context} (hwf : c.buf.wf = true)
include hwf

theorem Context.put_wf (b : Byte) : (c.put b).buf.wf = true := by
  rw [Context.put_buf]; exact Memory.wf_write hwf _ _

/-- The marker stands at OFFSET, and fill bytes behind it as far as they go within the block. -/
theorem Context.read_marker_putFill {n : Nat} (hn : (offset c.len).toNat + n < 64) {i : BufIndex}
    (hi : i.toNat ≤ (offset c.len).toNat + n) : Memory.read ((c.put padMarker).putFill n).buf i =
      if i.toNat < (offset c.len).toNat then Memory.read c.buf i
      else if i.toNat = (offset c.len).toNat then 0x80#8 else 0x00#8 := by
  have hmark : i = offset c.len ↔ i.toNat = (offset c.len).toNat := BitVec.toNat_inj.symm
  rw [Context.putFill_read n _ (Context.put_wf hwf _), Context.put_len, Context.put_buf, Memory.read_write hwf,
    toNat_offset_add_one]
  simp only [hmark]
  obtain hlt | heq | hgt := Nat.lt_trichotomy i.toNat (offset c.len).toNat
  · rw [if_neg (by omega), if_neg (by omega), if_pos hlt]
  · rw [if_neg (by omega), if_pos heq, if_neg (by omega), if_pos heq, padMarker]
  · rw [if_pos (by omega), if_neg (by omega), if_neg (by omega)]

theorem Context.fillBlock_wf : c.fillBlock.buf.wf = true := Context.putFill_wf _ _ (Context.put_wf hwf _)

theorem Context.read_fillBlock (i : BufIndex) : Memory.read c.fillBlock.buf i =
    if i.toNat < (offset c.len).toNat then Memory.read c.buf i
    else if i.toNat = (offset c.len).toNat then 0x80#8 else 0x00#8 := by
  have ho := (offset c.len).isLt
  have hi := i.isLt
  exact Context.read_marker_putFill hwf (by omega) (by omega)

/-- Below the length field the padded block holds the message's last bytes, the marker and fill bytes. -/
theorem Context.read_pad_of_room (h : (offset c.len).toNat < 56) {i : BufIndex} (hi : i.toNat < 56) :
    Memory.read c.pad.buf i = if i.toNat < (offset c.len).toNat then Memory.read c.buf i
      else if i.toNat = (offset c.len).toNat then 0x80#8 else 0x00#8 := by
  rw [Context.pad, padLength, if_pos h]
  exact Context.read_marker_putFill hwf (by omega) (by omega)

/-- A block of its own for the length field holds fill bytes below it. -/
theorem Context.read_pad_of_overflow (h : 56 ≤ (offset c.len).toNat) {i : BufIndex} (hi : i.toNat < 56) :
    Memory.read c.pad.buf i = 0x00#8 := by
  rw [Context.pad_of_overflow h, Context.putFill_read _ _ (Context.fillBlock_wf hwf), Context.fillBlock_offset,
    if_pos (by omega)]

/-- The final block (R151, R155). -/
theorem Context.read_finish (i : BufIndex) : Memory.read c.finish.buf i =
    if 56 ≤ i.toNat then (c.len * 8#64).extractLsb' (8 * (i.toNat - 56)) 8
    else if 56 ≤ (offset c.len).toNat then 0x00#8
    else if i.toNat < (offset c.len).toNat then Memory.read c.buf i
    else if i.toNat = (offset c.len).toNat then 0x80#8 else 0x00#8 := by
  have hpad : c.pad.buf.wf = true := Context.putFill_wf _ _ (Context.put_wf hwf _)
  rw [Context.finish_buf, writeLengthField_read hpad]
  split
  · rfl
  next hfield =>
    split
    next hover => exact Context.read_pad_of_overflow hwf hover (by omega)
    next hroom => exact Context.read_pad_of_room hwf (by omega) (by omega)

end

/-! ### FINISH, case by case (R150) -/

theorem exec_finish_finished {s : State} (hb : s.busy = false) (hm : s.ctx.mode = .finished) :
    exec .finish s = .next (s.raise .afterFinish) := by
  show execFinish s = _
  rw [execFinish, whenReady_idle hb, if_pos hm]

/-- FINISH, inverted: not accepted, refused after FINISH, or performed. -/
theorem exec_finish_inv {s t : State} (h : exec .finish s = .next t) :
    (s.busy = true ∧ t = s) ∨ (s.ctx.mode = .finished ∧ t = s.raise .afterFinish) ∨
      (s.busy = false ∧ s.ctx.mode = .active ∧ t = s.startFinish) := by
  cases hb : s.busy with
  | true => exact .inl ⟨rfl, next_unique h (whenReady_busy hb _)⟩
  | false =>
    cases hm : s.ctx.mode with
    | finished => exact .inr (.inl ⟨rfl, next_unique h (exec_finish_finished hb hm)⟩)
    | active => exact .inr (.inr ⟨rfl, rfl, next_unique h (exec_finish hb hm)⟩)

/-- Settles O38: FINISH's registers, with ACC by whether the length field fits behind the marker. -/
theorem finishPadsEncodesTheLengthAndEmits : Obligations.FinishPadsEncodesTheLengthAndEmits := by
  refine ⟨fun hasRaw => decodeOfEncodeIsTheInstruction hasRaw .finish rfl, fun s hb hm => exec_finish_finished hb hm,
    fun s hb hm hwf => ⟨_, exec_finish hb hm, rfl, rfl, ?_⟩⟩
  rw [State.startFinish_settled]
  refine ⟨Context.finish_len _, rfl, rfl, Context.read_finish hwf, fun hroom => ?_, fun hover => ?_⟩
  · rw [Context.finish_acc, Context.pad_acc_of_room hroom]
  · refine ⟨s.ctx.fillBlock.buf, Context.fillBlock_wf hwf, Context.read_fillBlock hwf, ?_⟩
    rw [Context.finish_acc, Context.pad_acc_of_overflow hover]

end Sys2Proof.Machine
end

section
/-! SUPPORT. What FINISH leaves unchanged (spec 43 R150, R152), and what leaves a finished core's digest unchanged (10 R33,
43 R157). -/

namespace Sys2Proof.Machine

/-! ### Bytes before the padding, in any buffer (R151, R155) -/

/-- Fill bytes that stay within the block leave the bytes before them alone. -/
theorem Context.putFill_read_below {n : Nat} {c : Context} (hn : (offset c.len).toNat + n < 64) {i : BufIndex}
    (hi : i.toNat < (offset c.len).toNat) : Memory.read (c.putFill n).buf i = Memory.read c.buf i := by
  induction n generalizing c with
  | zero => rfl
  | succ n ih =>
    have hnext : (offset (c.put padFill).len).toNat = (offset c.len).toNat + 1 := by
      rw [Context.put_len, toNat_offset_next (by omega)]
    rw [Context.putFill, ih (by omega) (by omega), Context.put_buf, Memory.read_write_ne]
    rintro rfl
    exact Nat.lt_irrefl _ hi

theorem writeLengthBytes_read_below (m : Memory) (v : Len) {n : Nat} (hn : n ≤ 8) {i : BufIndex} (hi : i.toNat < 56) :
    Memory.read (writeLengthBytes m v n) i = Memory.read m i := by
  induction n with
  | zero => rfl
  | succ n ih =>
    rw [writeLengthBytes, Memory.read_write_ne, ih (by omega)]
    rintro rfl
    rw [lengthByteIndex_toNat (by omega)] at hi
    omega

/-- FINISH keeps the message bytes of a block that also holds the length field. -/
theorem Context.read_finish_below {c : Context} (hroom : (offset c.len).toNat < 56) {i : BufIndex}
    (hi : i.toNat < (offset c.len).toNat) : Memory.read c.finish.buf i = Memory.read c.buf i := by
  have hnext : (offset (c.put padMarker).len).toNat = (offset c.len).toNat + 1 := by
    rw [Context.put_len, toNat_offset_next (by omega)]
  have hfill : (offset c.len).toNat + 1 + (padLength (offset c.len).toNat - 1) = 56 := by
    rw [padLength, if_pos hroom]; omega
  rw [Context.finish_buf, writeLengthField, writeLengthBytes_read_below _ _ (Nat.le_refl 8) (by omega), Context.pad,
    Context.putFill_read_below (by omega) (by omega), Context.put_buf, Memory.read_write_ne]
  rintro rfl
  exact Nat.lt_irrefl _ hi

/-! ### The frame of FINISH (R150, R158) -/

/-- What FINISH leaves alone at its own edge, whatever it does. -/
theorem exec_finish_kept {s t : State} (h : exec .finish s = .next t) :
    t.ctx = s.ctx ∧ t.params = s.params ∧ t.inputs = s.inputs ∧ t.ret = s.ret ∧ t.rnd = s.rnd ∧ t.work = s.work ∧
      t.latched = s.latched ∧ t.stages = s.stages := by
  obtain ⟨-, rfl⟩ | ⟨-, rfl⟩ | ⟨-, -, rfl⟩ := exec_finish_inv h
  · exact ⟨rfl, rfl, rfl, rfl, rfl, rfl, rfl, rfl⟩
  · simp
  · exact ⟨rfl, rfl, rfl, rfl, rfl, rfl, rfl, rfl⟩

theorem exec_finish_flags {s t : State} (h : exec .finish s = .next t) (hm : s.ctx.mode = .active) :
    t.err = s.err ∧ t.ecause = s.ecause := by
  obtain ⟨-, rfl⟩ | ⟨hfin, -⟩ | ⟨-, -, rfl⟩ := exec_finish_inv h
  · exact ⟨rfl, rfl⟩
  · rw [hm] at hfin; cases hfin
  · exact ⟨rfl, rfl⟩

/-- What an idle core holds or owes after FINISH is what it held, or that finished. -/
theorem exec_finish_settled {s t : State} (hb : s.busy = false) (h : exec .finish s = .next t) :
    t.settled = s.ctx ∨ t.settled = s.ctx.finish := by
  obtain ⟨-, rfl⟩ | ⟨-, rfl⟩ | ⟨-, -, rfl⟩ := exec_finish_inv h
  · exact .inl (State.settled_of_not_busy hb)
  · exact .inl (by rw [State.raise_settled, State.settled_of_not_busy hb])
  · exact .inr s.startFinish_settled

theorem State.status_done (s : State) : s.status.getLsbD 1 = s.done := (statusWordShowsTheFlags s).2.1

/-- Settles O36. -/
theorem frameOfFinish : Obligations.FrameOfFinish := by
  intro s t h
  obtain ⟨hctx, hparams, hinputs, hstep⟩ := exec_finish_kept h
  refine ⟨hctx, hparams, hinputs, ?_, by rw [State.digest, hctx, State.digest], exec_finish_flags h, ?_⟩
  · rw [State.status_done, State.status_done, State.done, hctx, State.done]
  · obtain ⟨hret, hrnd, hwork, hlatched, hstages⟩ := hstep
    refine ⟨hret, hrnd, hwork, hlatched, hstages, fun hb => ?_⟩
    obtain howed | howed := exec_finish_settled hb h
    · rw [howed]
      exact ⟨rfl, fun _ _ _ => rfl⟩
    · rw [howed]
      exact ⟨Context.finish_len _, fun hroom _ hi => Context.read_finish_below hroom hi⟩

/-! ### A finished core (R33, R157) -/

theorem State.rejected_ctx (s : State) (r : Reject) : (s.rejected r).ctx = s.ctx := by
  cases r with
  | noRawPort => rfl
  | illegalOp => exact State.raise_ctx _ _
  | reservedBits => exact State.raise_ctx _ _

/-- In FINISHED every instruction but INIT leaves the registers of the context alone. -/
theorem ExecCase.ctx_of_finished {s t : State} {i : Instr} (h : ExecCase s i t) (hm : s.ctx.mode = .finished)
    (hi : i ≠ .init) : t.ctx = s.ctx := by
  cases h with
  | same => rfl
  | error => exact State.raise_ctx _ _
  | init => exact absurd rfl hi
  | write _ _ ha => rw [hm] at ha; cases ha
  | commit _ _ _ ha => rw [hm] at ha; cases ha
  | finish _ ha => rw [hm] at ha; cases ha
  | rawWrite _ _ _ _ ha => rw [hm] at ha; cases ha

/-- In FINISHED a command port's word that is not INIT leaves the registers of the context alone. -/
theorem perform_ctx_of_finished {w : Option (BitVec 16)} {s t : State} (h : perform (w.map .command) s = .next t)
    (hm : s.ctx.mode = .finished) :
    t.ctx = s.ctx ∨ ∃ c, w = some c ∧ decode s.params.hasRawPort (.command c) = .ok .init := by
  cases w with
  | none =>
    obtain rfl := Host.Outcome.next.inj h
    exact .inl rfl
  | some c =>
    rw [Option.map_some] at h
    cases hdec : decode s.params.hasRawPort (.command c) with
    | error r =>
      obtain rfl := next_unique h (perform_error hdec)
      exact .inl (s.rejected_ctx r)
    | ok i =>
      by_cases hi : i = .init
      · exact .inr ⟨c, rfl, by rw [hdec, hi]⟩
      · rw [perform_ok hdec] at h
        exact .inl ((exec_inv h).ctx_of_finished hm hi)

/-- Settles O56: a finished core is idle, its raw port keeps MODE and DIG, and so does every command but INIT. -/
theorem digestIsFixedUntilInitOrReset : Obligations.DigestIsFixedUntilInitOrReset := by
  intro s t p rest hinv hpins ht hm
  obtain ⟨t', ht', hc⟩ := step_inversion s hpins
  obtain rfl := next_unique ht ht'
  obtain ⟨hrst, -⟩ | ⟨-, u, hu, ⟨hb, -⟩ | ⟨-, -, hcmd⟩⟩ := hc
  · exact .inr (.inl hrst)
  · have ha := hinv.busyMode hb
    rw [hm] at ha; cases ha
  · obtain ⟨humode, hudig, -⟩ := perform_raw_kept hu
    have hparams : u.params = s.params := (perform_params hu).trans (State.afterPins_params _ _ _)
    obtain hctx | hinit := perform_ctx_of_finished hcmd (humode.trans hm)
    · have hdig : t.ctx.dig = s.ctx.dig := by rw [hctx]; exact hudig
      exact .inl ⟨by rw [hctx]; exact humode.trans hm, hdig, by rw [State.digest, hdig, State.digest]⟩
    · rw [hparams] at hinit
      exact .inr (.inr hinit)

end Sys2Proof.Machine
end

section
/-! SUPPORT. The round functions and the rotator bit by bit (spec 44 R170 to R175), and the rotation amounts (spec 45 R181). -/

namespace Sys2Proof.Machine

/-! ### The rotator (R174): the model's formula is the library's `BitVec.rotateLeftAux` -/

/-- The low n bits are the ones that wrap around. -/
theorem getLsbD_rotl32_of_lt (v : Word) {n k : Nat} (h : k < n) :
    (rotl32 v n).getLsbD k = v.getLsbD (32 - n + k) := BitVec.getLsbD_rotateLeftAux_of_lt h

/-- The other bits move up by n. -/
theorem getLsbD_rotl32_of_ge (v : Word) {n k : Nat} (h : n ≤ k) (hk : k < 32) :
    (rotl32 v n).getLsbD k = v.getLsbD (k - n) := by
  have hbit : (rotl32 v n).getLsbD k = (decide (k < 32) && v.getLsbD (k - n)) := BitVec.getLsbD_rotateLeftAux_of_ge h
  rw [hbit, decide_eq_true hk, Bool.true_and]

theorem getLsbD_rotl32 (v : Word) {n k : Nat} (hn : n < 32) (hk : k < 32) :
    (rotl32 v n).getLsbD k = v.getLsbD ((k + 32 - n) % 32) := by
  rcases Nat.lt_or_ge k n with h | h
  · rw [getLsbD_rotl32_of_lt v h, show (k + 32 - n) % 32 = 32 - n + k by omega]
  · rw [getLsbD_rotl32_of_ge v h hk, show (k + 32 - n) % 32 = k - n by omega]

/-! ### The rotation amounts (R181) -/

theorem sRow_length (grp : Nat) : (sRow grp).length = 4 := by
  unfold sRow
  split <;> rfl

theorem sRow_range (grp : Nat) : ∀ n ∈ sRow grp, 4 ≤ n ∧ n ≤ 23 := by
  unfold sRow
  split <;> decide

theorem sOf_mem_sRow (i : Nat) : sOf i ∈ sRow (i / 16) := by
  have hlt : i % 4 < (sRow (i / 16)).length := by rw [sRow_length]; omega
  rw [sOf, List.getD_eq_getElem _ _ hlt]
  exact List.getElem_mem hlt

/-- Settles O43: a bit wraps around or moves up, and an amount stands in its group's row. -/
theorem rotatorMovesEveryBit : Obligations.RotatorMovesEveryBit :=
  ⟨fun v _ _ _ hn hk => getLsbD_rotl32 v hn hk, fun i _ => sRow_range _ _ (sOf_mem_sRow i)⟩

/-! ### The round functions (R170 to R173), R175's table by the bit that selects -/

theorem getLsbD_fF (x y z : Word) {n : Nat} (hn : n < 32) :
    (fF x y z).getLsbD n = if x.getLsbD n then y.getLsbD n else z.getLsbD n := by
  rw [fF, BitVec.getLsbD_or, BitVec.getLsbD_and, BitVec.getLsbD_and, BitVec.getLsbD_not, decide_eq_true hn]
  cases x.getLsbD n <;> simp

theorem getLsbD_fG (x y z : Word) {n : Nat} (hn : n < 32) :
    (fG x y z).getLsbD n = if z.getLsbD n then x.getLsbD n else y.getLsbD n := by
  rw [fG, BitVec.getLsbD_or, BitVec.getLsbD_and, BitVec.getLsbD_and, BitVec.getLsbD_not, decide_eq_true hn]
  cases z.getLsbD n <;> simp

theorem getLsbD_fH (x y z : Word) (n : Nat) :
    (fH x y z).getLsbD n = xor (xor (x.getLsbD n) (y.getLsbD n)) (z.getLsbD n) := by
  rw [fH, BitVec.getLsbD_xor, BitVec.getLsbD_xor]

theorem getLsbD_fI (x y z : Word) {n : Nat} (hn : n < 32) :
    (fI x y z).getLsbD n = xor (y.getLsbD n) (x.getLsbD n || !z.getLsbD n) := by
  rw [fI, BitVec.getLsbD_xor, BitVec.getLsbD_or, BitVec.getLsbD_not, decide_eq_true hn, Bool.true_and]

/-- Settles O42, function by function. -/
theorem roundFunctionsBitByBit : Obligations.RoundFunctionsBitByBit :=
  fun x y z n hn => ⟨getLsbD_fF x y z hn, getLsbD_fG x y z hn, getLsbD_fH x y z n, getLsbD_fI x y z hn⟩

end Sys2Proof.Machine
end

section
/-! SUPPORT. Errors at the edges (spec 60): the cause codes, the raw write refused while BUSY = 1 or after FINISH, the idle edge,
and that errors are only recorded: no instruction reads them, and nothing clears them but INIT and reset. -/

namespace Sys2Proof.Machine

/-- Settles O5. -/
theorem causeCodesAreR200s : Obligations.CauseCodesAreR200s :=
  ⟨rfl, rfl, rfl, rfl, rfl, rfl, rfl, fun c => by cases c <;> decide⟩

/-- Settles O16: a reset edge, an engine's edge and a command's word each answer a state. -/
theorem everyEdgeHasANextState : Obligations.EveryEdgeHasANextState := fun s =>
  let ⟨t, ht, _⟩ := step_inversion s (p := (nextPins s.busy s.inputs).1) rfl
  ⟨t, ht⟩

/-! ### The raw port at one edge (R76, R204, R206) -/

theorem decode_raw_present {hasRaw : Bool} (hr : hasRaw = true) (b : BitVec 14) :
    ∃ a d, decode hasRaw (.raw b) = .ok (.rawWrite a d) := by
  subst hr; exact ⟨_, _, rfl⟩

/-- Without the raw port a bundle does nothing. -/
theorem perform_raw_absent {s : State} (hr : s.params.hasRawPort = false) (w : Option (BitVec 14)) :
    perform (w.map .raw) s = .next s := by
  cases w with
  | none => rfl
  | some b =>
    have hdec : decode s.params.hasRawPort (.raw b) = .error .noRawPort := by rw [hr]; rfl
    exact perform_error hdec

theorem perform_raw_busy {s : State} (hr : s.params.hasRawPort = true) (hb : s.busy = true) (b : BitVec 14) :
    perform (some (.raw b)) s = .next (s.raise .rawWhileBusy) := by
  obtain ⟨a, d, hdec⟩ := decode_raw_present hr b
  exact (perform_ok hdec).trans (exec_rawWrite_busy hr hb a d)

/-- While BUSY = 1 the engine's edge is taken on the state that the raw port left. -/
theorem step_of_busy_raw_first {s u : State} {p : Pins} {rest : List HostAction}
    (hpins : nextPins s.busy s.inputs = (p, rest)) (hrst : p.rst = false) (hb : s.busy = true)
    (hu : perform (p.raw.map .raw) (s.afterPins p rest) = .next u) : step s = .next u.engineEdge := by
  obtain ⟨t, ht, ⟨hr, -⟩ | ⟨-, v, hv, ⟨-, -, rfl⟩ | ⟨hidle, -⟩⟩⟩ := step_inversion s hpins
  · rw [hrst] at hr; cases hr
  · rwa [next_unique hu hv]
  · rw [hb] at hidle; cases hidle

/-- A busy core accepts nothing, so a command is held over if the host holds it (R71). -/
theorem State.afterPins_of_busy {s : State} (hb : s.busy = true) (p : Pins) (rest : List HostAction) :
    s.afterPins p rest =
      { s with inputs := (if p.cmd.isSome && p.hold then [.drive { cmd := p.cmd }] else []) ++ rest } := by
  simp [State.afterPins, Pins.heldOver, State.cmdReady, hb]

/-- Settles O14: the raw port raises its error, then the engine takes its edge. -/
theorem rawWriteWhileBusyIsDropped : Obligations.RawWriteWhileBusyIsDropped := by
  intro s p rest b hpins hb hr hrst hraw
  rw [← State.afterPins_of_busy hb]
  refine step_of_busy_raw_first hpins hrst hb ?_
  rw [hraw]
  exact perform_raw_busy (by simpa using hr) (by simpa using hb) b

/-- Settles O12: the raw write goes first and leaves its error, the first one, for the command to run on. -/
theorem refusedRawWriteDoesNotBlockTheCommand : Obligations.RefusedRawWriteDoesNotBlockTheCommand := by
  intro s p rest b c i hpins hb hr hm herr hrst hraw hcmd hdec
  obtain ⟨a, d, hrawdec⟩ := decode_raw_present hr b
  obtain ⟨u, hu, hrun, -⟩ := sameEdgeRawWriteComesFirst s p rest b c _ hpins hb hrst hraw hcmd hrawdec
  have hrefused := next_unique hu (exec_rawWrite_finished (s := { s with inputs := rest }) hr hb hm a d)
  rw [hrun i (by rwa [hr]), hrefused, State.raise_of_clear (s := { s with inputs := rest }) herr]

/-- Settles O15: with no command, the edge is the raw port's, and nothing comes over that port. -/
theorem idleCoreHoldsItsState : Obligations.IdleCoreHoldsItsState := by
  intro s p rest hpins hb hrst hcmd hquiet
  rw [step_of_idle_raw hpins hrst hb hcmd]
  obtain hraw | hr := hquiet
  · rw [hraw]; rfl
  · exact perform_raw_absent (s := { s with inputs := rest }) hr p.raw

/-! ### After FINISH (R201, R205) -/

/-- Settles O21. -/
theorem finishedCoreRefusesAllButInit : Obligations.FinishedCoreRefusesAllButInit := fun _ hb hm =>
  ⟨exec_write_finished hb hm, fun n hr => exec_commit_finished hb hr hm n, exec_finish_finished hb hm,
    fun a d hr => exec_rawWrite_finished hr hb hm a d, _, exec_init hb, rfl, rfl, rfl⟩

/-! ### No instruction reads the error flags (R207) -/

/-- The state with other error flags. -/
def State.withErrors (s : State) (e : Bool) (c : Cause) : State := { s with err := e, ecause := c }

/-- What a meaning answers, its error flags cleared. -/
def withoutErrors : Host.Outcome State Fault Refusal → Host.Outcome State Fault Refusal
  | .next s => .next (s.withErrors false .none)
  | .fault r => .fault r
  | .refused r => .refused r

section
variable {s : State} {e : Bool} {c : Cause}

theorem withoutErrors_same : withoutErrors (.next (s.withErrors e c)) = withoutErrors (.next s) := rfl

theorem withoutErrors_raise (s : State) (k : Cause) : withoutErrors (.next (s.raise k)) = withoutErrors (.next s) := by
  obtain ⟨e, c, h⟩ := s.raise_flags_only k
  rw [h]; rfl

theorem withoutErrors_raise_withErrors (k : Cause) :
    withoutErrors (.next ((s.withErrors e c).raise k)) = withoutErrors (.next (s.raise k)) := by
  rw [withoutErrors_raise, withoutErrors_raise, withoutErrors_same]

theorem withoutErrors_absorb (f : Bool) (a r : Context) :
    withoutErrors (.next ((s.withErrors e c).absorb f a r)) = withoutErrors (.next (s.absorb f a r)) := by
  cases f <;> rfl

theorem withoutErrors_whenReady {o o' : Host.Outcome State Fault Refusal} (h : withoutErrors o = withoutErrors o') :
    withoutErrors (whenReady (s.withErrors e c) o) = withoutErrors (whenReady s o') := by
  cases hb : s.busy with
  | true => rw [whenReady_busy hb, whenReady_busy (s := s.withErrors e c) hb, withoutErrors_same]
  | false => rw [whenReady_idle hb, whenReady_idle (s := s.withErrors e c) hb, h]

theorem withoutErrors_ite {p : Prop} [Decidable p] {a a' b b' : Host.Outcome State Fault Refusal}
    (ha : withoutErrors a = withoutErrors a') (hb : withoutErrors b = withoutErrors b') :
    withoutErrors (if p then a else b) = withoutErrors (if p then a' else b') := by
  split
  · exact ha
  · exact hb

theorem execWrite_withErrors (b : Byte) :
    withoutErrors (execWrite b (s.withErrors e c)) = withoutErrors (execWrite b s) :=
  withoutErrors_whenReady <|
    withoutErrors_ite (withoutErrors_raise_withErrors _) (withoutErrors_absorb _ _ _)

theorem execCommit_withErrors (n : Byte) :
    withoutErrors (execCommit n (s.withErrors e c)) = withoutErrors (execCommit n s) :=
  withoutErrors_whenReady <|
    withoutErrors_ite (withoutErrors_raise_withErrors _) <|
      withoutErrors_ite (withoutErrors_raise_withErrors _) <|
        withoutErrors_ite (withoutErrors_raise_withErrors _) (withoutErrors_absorb _ _ _)

theorem execFinish_withErrors :
    withoutErrors (execFinish (s.withErrors e c)) = withoutErrors (execFinish s) :=
  withoutErrors_whenReady <| withoutErrors_ite (withoutErrors_raise_withErrors _) rfl

theorem execRawWrite_withErrors (a : BufIndex) (d : Byte) :
    withoutErrors (execRawWrite a d (s.withErrors e c)) = withoutErrors (execRawWrite a d s) :=
  withoutErrors_ite (withoutErrors_same) <|
    withoutErrors_ite (withoutErrors_raise_withErrors _) <|
      withoutErrors_ite (withoutErrors_raise_withErrors _) rfl

theorem illegalOpcode_withErrors :
    withoutErrors (illegalOpcode (s.withErrors e c)) = withoutErrors (illegalOpcode s) :=
  withoutErrors_whenReady (withoutErrors_raise_withErrors _)

/-- An instruction does the same, error flags apart, whatever they hold. -/
theorem exec_withErrors (i : Instr) :
    withoutErrors (exec i (s.withErrors e c)) = withoutErrors (exec i s) := by
  cases i with
  | init => exact withoutErrors_whenReady rfl
  | write b => exact execWrite_withErrors b
  | commit n => exact execCommit_withErrors n
  | finish => exact execFinish_withErrors
  | rawWrite a d => exact execRawWrite_withErrors a d
  | _ => exact illegalOpcode_withErrors

end

/-- Settles O22. -/
theorem errorsDoNotBlockInstructions : Obligations.ErrorsDoNotBlockInstructions := by
  intro i s t e c ht
  obtain ⟨u, hu, -⟩ := exec_case i (s.withErrors e c)
  have hsame := exec_withErrors (s := s) (e := e) (c := c) i
  rw [hu, ht] at hsame
  exact ⟨u, hu, Host.Outcome.next.inj hsame⟩

/-! ### A recorded error stays (R206, R208) -/

/-- A recorded error stays recorded, with its cause, under every instruction but INIT. -/
theorem ExecCase.keeps_error {s t : State} {i : Instr} (h : ExecCase s i t) (he : s.err = true) (hi : i ≠ .init) :
    t.err = true ∧ t.ecause = s.ecause := by
  cases h with
  | same => exact ⟨he, rfl⟩
  | error _ c => rw [State.raise_of_set he]; exact ⟨he, rfl⟩
  | init => exact absurd rfl hi
  | write => exact ⟨(State.absorb_err _ _ _ _).trans he, State.absorb_ecause _ _ _ _⟩
  | commit => exact ⟨(State.absorb_err _ _ _ _).trans he, State.absorb_ecause _ _ _ _⟩
  | finish => exact ⟨he, rfl⟩
  | rawWrite => exact ⟨he, rfl⟩

theorem State.rejected_of_err {s : State} (he : s.err = true) (r : Reject) : s.rejected r = s := by
  cases r with
  | noRawPort => rfl
  | illegalOp => exact State.raise_of_set he _
  | reservedBits => exact State.raise_of_set he _

/-- A recorded error stays recorded, with its cause, unless a port's word is INIT. -/
theorem perform_keeps_error {w : Option PortWord} {s t : State} (h : perform w s = .next t) (he : s.err = true) :
    (t.err = true ∧ t.ecause = s.ecause) ∨ ∃ pw, w = some pw ∧ decode s.params.hasRawPort pw = .ok .init := by
  cases w with
  | none =>
    obtain rfl := Host.Outcome.next.inj h
    exact .inl ⟨he, rfl⟩
  | some pw =>
    cases hdec : decode s.params.hasRawPort pw with
    | error r =>
      obtain rfl := next_unique h (perform_error hdec)
      rw [State.rejected_of_err he]
      exact .inl ⟨he, rfl⟩
    | ok i =>
      by_cases hi : i = .init
      · exact .inr ⟨pw, rfl, hi ▸ hdec⟩
      · rw [perform_ok hdec] at h
        exact .inl ((exec_inv h).keeps_error he hi)

/-- No bundle is INIT, so the raw port keeps a recorded error. -/
theorem perform_raw_keeps_error {w : Option (BitVec 14)} {s u : State} (h : perform (w.map .raw) s = .next u)
    (he : s.err = true) : u.err = true ∧ u.ecause = s.ecause := by
  obtain hkept | ⟨pw, hw, hdec⟩ := perform_keeps_error h he
  · exact hkept
  · obtain ⟨b, -, rfl⟩ := Option.map_eq_some_iff.mp hw
    obtain ⟨-, a, d, hi⟩ := decode_raw_ok hdec
    cases hi

/-- Settles O23: the raw port and the engine keep a recorded error, and so does every command's word but INIT. -/
theorem errorFlagsClearedOnlyByInitOrReset : Obligations.ErrorFlagsClearedOnlyByInitOrReset := by
  intro s t p rest hpins ht he
  obtain ⟨t', ht', hc⟩ := step_inversion s hpins
  obtain rfl := next_unique ht ht'
  obtain ⟨hrst, -⟩ | ⟨-, u, hu, hc⟩ := hc
  · exact .inr (.inl hrst)
  · obtain ⟨hue, huc⟩ := perform_raw_keeps_error hu he
    obtain ⟨-, -, rfl⟩ | ⟨hb, -, hcmd⟩ := hc
    · obtain ⟨hte, htc⟩ := State.engineEdge_flags u
      exact .inl ⟨hte.trans hue, htc.trans huc⟩
    · obtain ⟨hte, htc⟩ | ⟨pw, hw, hdec⟩ := perform_keeps_error hcmd hue
      · exact .inl ⟨hte, htc.trans huc⟩
      · obtain ⟨c, hcmd', rfl⟩ := Option.map_eq_some_iff.mp hw
        rw [perform_params hu] at hdec
        exact .inr (.inr ⟨hb, c, hcmd', hdec⟩)

end Sys2Proof.Machine
end

section
/-! SUPPORT. Reset and the edges with BUSY = 1 (spec 70): what a reset edge leaves, whatever else happens at it (R230, R231),
and what moves the error flags while the engine works (R240, 60 R204). -/

namespace Sys2Proof.Machine

/-! ### The error flags while BUSY = 1 (R204, R240) -/

/-- While BUSY = 1 the error flags after an edge are those the raw port left: the engine does not touch them. -/
theorem step_flags_of_busy {s t u : State} {p : Pins} {rest : List HostAction}
    (hpins : nextPins s.busy s.inputs = (p, rest)) (hrst : p.rst = false) (hb : s.busy = true) (ht : step s = .next t)
    (hu : perform (p.raw.map .raw) (s.afterPins p rest) = .next u) : t.err = u.err ∧ t.ecause = u.ecause := by
  obtain rfl := next_unique ht (step_of_busy_raw_first hpins hrst hb hu)
  exact u.engineEdge_flags

/-- Where no bundle comes, or no raw port takes it, or an error is recorded already, the raw port keeps the error flags. -/
theorem perform_raw_keeps_flags {w : Option (BitVec 14)} {s u : State} (hu : perform (w.map .raw) s = .next u)
    (hquiet : w = none ∨ s.params.hasRawPort = false ∨ s.err = true) : u.err = s.err ∧ u.ecause = s.ecause := by
  obtain rfl | hr | he := hquiet
  · obtain rfl := Host.Outcome.next.inj hu
    exact ⟨rfl, rfl⟩
  · obtain rfl := next_unique hu (perform_raw_absent hr w)
    exact ⟨rfl, rfl⟩
  · obtain ⟨hue, huc⟩ := perform_raw_keeps_error hu he
    exact ⟨hue.trans he.symm, huc⟩

/-- A bundle that meets BUSY = 1 is the first error if none is recorded. -/
theorem perform_raw_busy_flags {b : BitVec 14} {s u : State} (hu : perform (some (.raw b)) s = .next u)
    (hr : s.params.hasRawPort = true) (hb : s.busy = true) (he : s.err = false) :
    u.err = true ∧ u.ecause = .rawWhileBusy := by
  obtain rfl := next_unique hu (perform_raw_busy hr hb b)
  rw [State.raise_of_clear he]
  exact ⟨rfl, rfl⟩

/-- Settles O51: the edge's flags are the raw port's, which keeps them or records the bundle it refuses. -/
theorem busyEdgesChangeTheErrorFlagsOnlyByARawWrite : Obligations.BusyEdgesChangeTheErrorFlagsOnlyByARawWrite := by
  intro s t p rest hpins hb hrst ht
  obtain ⟨u, hu⟩ := perform_answers (p.raw.map .raw) (s.afterPins p rest)
  obtain ⟨hte, htc⟩ := step_flags_of_busy hpins hrst hb ht hu
  rw [hte, htc]
  refine ⟨perform_raw_keeps_flags (s := s.afterPins p rest) hu, fun hraw hr he => ?_⟩
  obtain ⟨b, hbundle⟩ := Option.ne_none_iff_exists'.mp hraw
  rw [hbundle] at hu
  exact perform_raw_busy_flags hu hr hb he

/-! ### The reset values (R230) and the reset edge (R231) -/

/-- After reset the status word shows HAS_RAW and nothing else. -/
theorem State.afterReset_status (p : Params) (l : List HostAction) :
    (State.afterReset p l).status = if p.hasRawPort then 0x40#8 else 0x00#8 := by
  have hfields : (State.afterReset p l).status = BitVec.ofBool false ++ BitVec.ofBool p.hasRawPort ++ Cause.none.code ++
      BitVec.ofBool false ++ BitVec.ofBool false ++ BitVec.ofBool false := rfl
  rw [hfields]
  cases p.hasRawPort <;> decide

theorem Context.initial_digestBits : digestBits Context.initial.dig = 0#128 := by decide

/-- Settles O1. -/
theorem resetLeavesTheSpecsValues : Obligations.ResetLeavesTheSpecsValues :=
  ⟨rfl, fun p l => ⟨rfl, rfl, fun _ => rfl, Context.initial_dig, rfl, rfl, rfl, rfl, rfl, rfl,
    State.afterReset_status p l, Context.initial_digestBits⟩⟩

/-- An edge with rst = 1 resets; only a command the host holds stays in the queue. -/
theorem step_of_rst {s : State} {p : Pins} {rest : List HostAction} (hpins : nextPins s.busy s.inputs = (p, rest))
    (hrst : p.rst = true) : step s = .next (State.afterReset s.params (p.heldOver false ++ rest)) := by
  obtain ⟨t, ht, ⟨-, rfl⟩ | ⟨hrst', -⟩⟩ := step_inversion s hpins
  · exact ht
  · rw [hrst] at hrst'; cases hrst'

/-- Settles O2: the edge leaves the reset state, whose registers are O1's. -/
theorem resetEdgeAbandonsEverything : Obligations.ResetEdgeAbandonsEverything := by
  intro s p rest hpins hrst
  obtain ⟨hacc, hlen, hbuf, hdig, hmode, hbusy, herr, hcause, hctl, hrnd, -⟩ :=
    resetLeavesTheSpecsValues.2 s.params (p.heldOver false ++ rest)
  exact ⟨_, step_of_rst hpins hrst, rfl, hacc, hlen, hbuf, hdig, hmode, hbusy, herr, hcause, hctl, hrnd⟩

/-- Settles O55: the reset state is idle, so it owes what it holds. -/
theorem invariantHoldsAfterReset : Obligations.InvariantHoldsAfterReset := fun p l =>
  ⟨State.afterReset_inv p l, (State.afterReset_inv p l).onCourse_of_idle rfl⟩

end Sys2Proof.Machine
end
